-- ==== Sys2Proof/Word.lean ====
section
/-!
DEFINITION. The word types of the CHIP-8 CORE (spec 00_scope.md R5, R6; 10_state.md R10, R13, R20).
All quantities of the machine are unsigned; nothing is ever sign-extended (R6).
-/

namespace Sys2Proof

/-- A memory byte or a general register: 8 bits (R10, R25). -/
abbrev Byte := BitVec 8

/-- A byte address: 12 bits (R13, R17, R20). -/
abbrev Addr := BitVec 12

/-- An instruction word: 16 bits (R60). -/
abbrev InsnWord := BitVec 16

/-- A general register's number, a stack index or a logical key's number: 4 bits (R10, R21, R29). -/
abbrev Nibble := BitVec 4

end Sys2Proof
end

