-- ==== Sys2Proof/Config.lean ====
section
/-!
DEFINITION. The parameters of the block (spec 00_scope.md R5) and its one free value, the oracle `rnd8`.
The parameter FONT is an argument of construction (Machine/Construct.lean); its default table stands in
Machine/Memory.lean.
-/

namespace Sys2Proof.Config

/-- `MEM_SIZE`: the addresses 0x000 to 0xFFF (R5). -/
abbrev memSize : Nat := 4096

/-- `FONT_LEN`: the font fills the addresses 0x000 to 0x04F (R5, R26). -/
abbrev fontLen : Nat := 80

/-- `GLYPH_LEN`: a glyph's height in bytes (R5). -/
abbrev glyphLen : Nat := 5

/-- `PROG_BASE`: where the program image is loaded and the first instruction is fetched (R5, R203). -/
abbrev progBase : Nat := 0x200

/-- `MAX_ROM`: the longest program image, in bytes (R5, R202). -/
abbrev maxRom : Nat := 0xE00

/-- `WIDTH`: columns of the display (R5, R28). -/
abbrev width : Nat := 64

/-- `HEIGHT`: rows of the display (R5, R28). -/
abbrev height : Nat := 32

/-- FREE VALUE. The oracle `rnd8` (R112, decision D13): the byte the environment delivers at the n-th draw.
It has no body, so no proof can know a value of it. Log entry 7. -/
opaque rnd8 : Nat → Byte

end Sys2Proof.Config
end

