-- ==== Sys2Proof/Syntax.lean ====
section
/-!
DEFINITION. The instruction set: one constructor per row of spec/opcode_table.json (spec 30_encoding.md R65 to
R69), in the table's order. Operand names are the spec's fields x, y, n, kk, nnn (R61).
-/

namespace Sys2Proof

/-- The 34 instructions. -/
inductive Instr where
  /-- `CLS` (00E0, R140). -/
  | cls
  /-- `RET` (00EE, R81). -/
  | ret
  /-- `JP nnn` (1nnn, R82). -/
  | jp (nnn : Addr)
  /-- `CALL nnn` (2nnn, R83). -/
  | call (nnn : Addr)
  /-- `SE Vx, kk` (3xkk, R84). -/
  | seImm (x : Nibble) (kk : Byte)
  /-- `SNE Vx, kk` (4xkk, R85). -/
  | sneImm (x : Nibble) (kk : Byte)
  /-- `SE Vx, Vy` (5xy0, R86). -/
  | seReg (x y : Nibble)
  /-- `LD Vx, kk` (6xkk, R101). -/
  | ldImm (x : Nibble) (kk : Byte)
  /-- `ADD Vx, kk` (7xkk, R102). -/
  | addImm (x : Nibble) (kk : Byte)
  /-- `LD Vx, Vy` (8xy0, R103). -/
  | ldReg (x y : Nibble)
  /-- `OR Vx, Vy` (8xy1, R104). -/
  | orReg (x y : Nibble)
  /-- `AND Vx, Vy` (8xy2, R105). -/
  | andReg (x y : Nibble)
  /-- `XOR Vx, Vy` (8xy3, R106). -/
  | xorReg (x y : Nibble)
  /-- `ADD Vx, Vy` (8xy4, R107). -/
  | addReg (x y : Nibble)
  /-- `SUB Vx, Vy` (8xy5, R108). -/
  | subReg (x y : Nibble)
  /-- `SHR Vx` (8xy6, R109); the field y is in the word but unused (R67). -/
  | shr (x y : Nibble)
  /-- `SUBN Vx, Vy` (8xy7, R110). -/
  | subnReg (x y : Nibble)
  /-- `SHL Vx` (8xyE, R111); the field y is in the word but unused (R67). -/
  | shl (x y : Nibble)
  /-- `SNE Vx, Vy` (9xy0, R87). -/
  | sneReg (x y : Nibble)
  /-- `LD I, nnn` (Annn, R120). -/
  | ldI (nnn : Addr)
  /-- `JP V0, nnn` (Bnnn, R88). -/
  | jpV0 (nnn : Addr)
  /-- `RND Vx, kk` (Cxkk, R112). -/
  | rnd (x : Nibble) (kk : Byte)
  /-- `DRW Vx, Vy, n` (Dxyn, R141). -/
  | drw (x y n : Nibble)
  /-- `SKP Vx` (Ex9E, R151). -/
  | skp (x : Nibble)
  /-- `SKNP Vx` (ExA1, R152). -/
  | sknp (x : Nibble)
  /-- `LD Vx, DT` (Fx07, R153). -/
  | ldVxDt (x : Nibble)
  /-- `LD Vx, K` (Fx0A, R154). -/
  | ldVxK (x : Nibble)
  /-- `LD DT, Vx` (Fx15, R155). -/
  | ldDtVx (x : Nibble)
  /-- `LD ST, Vx` (Fx18, R156). -/
  | ldStVx (x : Nibble)
  /-- `ADD I, Vx` (Fx1E, R121). -/
  | addI (x : Nibble)
  /-- `LD F, Vx` (Fx29, R122). -/
  | ldF (x : Nibble)
  /-- `LD B, Vx` (Fx33, R123). -/
  | ldB (x : Nibble)
  /-- `LD [I], Vx` (Fx55, R124). -/
  | storeRegs (x : Nibble)
  /-- `LD Vx, [I]` (Fx65, R125). -/
  | loadRegs (x : Nibble)
  deriving DecidableEq, Repr

end Sys2Proof
end

