-- ==== Sys2Proof/WellFormed.lean ====
section
/-!
DEFINITION. Well-formedness of what comes from outside the machine: an instruction term and a program image.
-/

namespace Sys2Proof

/-- Every instruction term is well formed: each operand has exactly the width of its field (spec 30_encoding.md R61,
R63), every register number and every value of kk, nnn and n is legal, so the types leave nothing to refuse. -/
def Instr.wellFormed (_ : Instr) : Bool := true

/-- A program image: the byte sequence given to construction, or its absence (spec 70_reset_and_hazards.md R201). -/
abbrev Image := Option (List Byte)

/-- The image is a byte sequence and not absent ("null", R202). -/
def Image.present (rom : Image) : Bool := rom.isSome

/-- The image has at least one byte (R202, decision D22). Log entry 20. -/
def Image.nonEmpty (rom : Image) : Bool := 1 ≤ (rom.getD []).length

/-- The image has at most 0xE00 bytes (R202, R47). -/
def Image.fits (rom : Image) : Bool := (rom.getD []).length ≤ Config.maxRom

/-- The images construction accepts: present, not empty and at most 0xE00 bytes long (R202). -/
def Image.wellFormed (rom : Image) : Bool := rom.present && rom.nonEmpty && rom.fits

end Sys2Proof
end

