-- ==== Sys2Proof/Machine/State.lean ====
section
/-!
DEFINITION. The machine's state as plain data: every piece of state of spec 10_state.md (R10 to R29), the model's own
three fields (`draws`, `agenda`, `emitted`), the reasons a step can stop, and the state after reset.
-/

namespace Sys2Proof.Machine

/-- The executor's three states (R22). -/
inductive ExecState where
  /-- `Running`: execution ticks run cycles. -/
  | running
  /-- `WaitingForKey`: parked by `LD Vx, K` until a key is pressed. -/
  | waitingForKey
  /-- `Halted`: terminal, entered by the halt sequence only. -/
  | halted
  deriving DecidableEq, Repr

/-- The run-time faults of the SPEC (R170). Each takes the halt sequence of R172, which is a next state of the model. -/
inductive HaltCause where
  /-- Code 1: the fetched word is unmatched. -/
  | unknownOpcode
  /-- Code 2: `CALL` with sp = 15. -/
  | stackOverflow
  /-- Code 3: `RET` with sp = 0. -/
  | stackUnderflow
  /-- Code 4: a byte address above 0xFFF. -/
  | addressFault
  deriving DecidableEq, Repr

/-- The input events: the steps of the agents (R30, R50). -/
inductive Event where
  /-- `exec_tick`: one execution cycle (R80). -/
  | execTick
  /-- `timer_tick`: "decrement timers" (R177). -/
  | timerTick
  /-- `press(k)`: key k becomes the pressed key (R181). -/
  | press (k : Nibble)
  /-- `release`: no key is pressed (R181). -/
  | release
  deriving DecidableEq, Repr

/-- The output events (R30). -/
inductive Output where
  /-- `disp_changed` (R184). -/
  | dispChanged
  /-- `diag(cause, word, addr)` (R185). -/
  | diag (cause : BitVec 3) (word : InsnWord) (addr : BitVec 13)
  deriving DecidableEq, Repr

/-- `mem` (R25): the bytes that differ from the reset contents, as (address, byte) pairs in rising order of address.
What an unlisted address reads as is `Memory.initialByte`, and the form is `Memory.wf` (Machine/Memory.lean). -/
abbrev Memory := List Host.Cell

/-- `Pix` (R28): 32 rows of 64 one-bit pixels, 1 for lit. `Pix[cx][cy]` is bit cx of row cy. -/
abbrev Grid := Vector (BitVec 64) 32

/-- The state of the block. -/
@[ext]
structure State where
  /-- `V[0]` to `V[15]` (R10). -/
  v : Vector Byte 16
  /-- `pc` (R13). -/
  pc : Addr
  /-- `I`, the index register (R17). -/
  idx : Addr
  /-- `DT`, the delay timer (R18). -/
  dt : Byte
  /-- `ST`, the sound timer (R19). -/
  st : Byte
  /-- `stack[0]` to `stack[15]` (R20). -/
  stack : Vector Addr 16
  /-- `sp`, the number of return addresses held (R21). -/
  sp : Nibble
  /-- `state`, the executor's state (R22). -/
  executor : ExecState
  /-- `wait_x`, the register of a pending key wait (R23). -/
  waitX : Nibble
  /-- `halt_cause` (R24). -/
  haltCause : BitVec 3
  /-- `halt_word` (R24). -/
  haltWord : InsnWord
  /-- `halt_addr` (R24). -/
  haltAddr : BitVec 13
  /-- `mem` (R25). -/
  mem : Memory
  /-- `Pix` (R28). -/
  pix : Grid
  /-- `key_valid` (R29): true when a key is pressed. -/
  keyValid : Bool
  /-- `key` (R29): the pressed key's number. -/
  key : Nibble
  /-- MODEL's own: how many bytes the oracle `rnd8` has delivered (R112). Log entry 7. -/
  draws : Nat
  /-- MODEL's own: the events still to come, next first, in the total order of R51. Log entries 5, 6 and 30. -/
  agenda : List Event
  /-- MODEL's own: the output events emitted so far, newest first (R9, R30). Log entry 8. -/
  emitted : List Output
  deriving DecidableEq, Repr

/-- Why a step stops with a fault: never. Each fault of the spec is taken (R172) and leaves a next state, so this type
has no constructor; that is safe. Log entry 9. -/
inductive Fault where
  deriving DecidableEq, Repr

/-- Why a step has no meaning. -/
inductive Refusal where
  /-- Raised by exec's arm of an instruction that has no meaning yet (no arm does): safe. -/
  | notModelled (mnemonic : String)
  deriving DecidableEq, Repr

/-- The machine right after reset and before a program image is copied in (R32, R201): pc = 0x200 and Running are
the source's, every other value of the spec's state is the spec's decision (log entries 1 to 3). The model's own three
fields start empty, DESIGN CHOICE: no byte drawn (log entry 7), nothing emitted (log entry 8), and an agenda of no
events, so that execution ticks alone follow a new machine unless the field is replaced; the spec leaves the schedule
open (R51, U17; log entry 30). -/
def State.reset : State where
  v := Vector.replicate 16 0
  pc := 0x200
  idx := 0
  dt := 0
  st := 0
  stack := Vector.replicate 16 0
  sp := 0
  executor := .running
  waitX := 0
  haltCause := 0
  haltWord := 0
  haltAddr := 0
  mem := []
  pix := Vector.replicate 32 0
  keyValid := false
  key := 0
  draws := 0
  agenda := []
  emitted := []

end Sys2Proof.Machine
end

