-- ==== Sys2Proof/Machine/Grid.lean ====
section
/-!
DEFINITION. The Display Surface (spec 10_state.md R28; 20_memory.md R54; 43_display.md R142): reading a pixel, the
clear and the XOR blit with its collision result.
-/

namespace Sys2Proof.Machine

/-- `Pix[cx][cy]` (R28). -/
def Grid.lit (g : Grid) (cx : Fin 64) (cy : Fin 32) : Bool := g[cy].getLsbD cx

/-- Every pixel off (R140). -/
def Grid.blank : Grid := Vector.replicate 32 0

/-- A row being blitted, with the collision result so far (R142). -/
structure RowBlit where
  row : BitVec 64
  coll : Bool
  deriving DecidableEq, Repr

/-- One sprite bit (R142): bitIndex 0 is bit 7 of the byte (D15) and the column wraps modulo 64. Log entry 16. -/
def blitBit (x0 : Nat) (byte : Byte) (a : RowBlit) (b : Nat) : RowBlit :=
  let s := byte.getLsbD (7 - b)
  let cx := (x0 + b) % Config.width
  { row := a.row ^^^ ((BitVec.ofBool s).setWidth 64 <<< cx), coll := a.coll || (s && a.row.getLsbD cx) }

/-- One sprite row (R142): its eight bits, left to right, onto one row of the screen. -/
def blitByte (x0 : Nat) (byte : Byte) (a : RowBlit) : RowBlit :=
  (List.range 8).foldl (blitBit x0 byte) a

/-- The display with the collision result so far (R142). -/
structure BlitState where
  pix : Grid
  coll : Bool
  deriving DecidableEq, Repr

/-- Sprite row `r` lands on screen row (y0 + r) mod 32 (R142). -/
def blitRow (x0 y0 r : Nat) (byte : Byte) (a : BlitState) : BlitState :=
  let cy : Fin 32 := Fin.ofNat Config.height (y0 + r)
  let done := blitByte x0 byte { row := a.pix[cy], coll := a.coll }
  { pix := a.pix.set cy done.row, coll := done.coll }

/-- The rows of a sprite from row `r` on, in order (R142). -/
def blitRows (x0 y0 : Nat) : Nat → List Byte → BlitState → BlitState
  | _, [], a => a
  | r, byte :: rows, a => blitRows x0 y0 (r + 1) rows (blitRow x0 y0 r byte a)

/-- `Blit(x0, y0, n, rows)` (R142), n being the number of rows. -/
def blit (x0 y0 : Byte) (rows : List Byte) (g : Grid) : BlitState :=
  blitRows x0.toNat y0.toNat 0 rows { pix := g, coll := false }

end Sys2Proof.Machine
end

