-- ==== Sys2Proof/Machine/Memory.lean ====
section
/-!
DEFINITION. The byte-addressable memory (spec 10_state.md R25 to R27; 20_memory.md R40 to R48): reset contents, read
and write of one byte, and the canonical form of the list that holds it.
-/

namespace Sys2Proof.Machine

/-- The default of the parameter FONT (R27): 16 glyphs of 5 bytes. PRESUMED (general knowledge, G1). Log entry 2. -/
def defaultFont : List Byte :=
  [0xF0, 0x90, 0x90, 0x90, 0xF0, 0x20, 0x60, 0x20, 0x20, 0x70, 0xF0, 0x10, 0xF0, 0x80, 0xF0, 0xF0, 0x10, 0xF0, 0x10, 0xF0] ++
  [0x90, 0x90, 0xF0, 0x10, 0x10, 0xF0, 0x80, 0xF0, 0x10, 0xF0, 0xF0, 0x80, 0xF0, 0x90, 0xF0, 0xF0, 0x10, 0x20, 0x40, 0x40] ++
  [0xF0, 0x90, 0xF0, 0x90, 0xF0, 0xF0, 0x90, 0xF0, 0x10, 0xF0, 0xF0, 0x90, 0xF0, 0x90, 0x90, 0xE0, 0x90, 0xE0, 0x90, 0xE0] ++
  [0xF0, 0x80, 0x80, 0x80, 0xF0, 0xE0, 0x90, 0x90, 0x90, 0xE0, 0xF0, 0x80, 0xF0, 0x80, 0xF0, 0xF0, 0x80, 0xF0, 0x80, 0x80]

/-- What an unlisted address reads as (R26): the font below 0x050 and 0x00 elsewhere. Log entries 2 and 3. -/
def Memory.initialByte (a : Nat) : Byte := defaultFont.getD a 0x00

/-- `MemRead(a, 1)` (R8, R46): the byte at address `a`. Callers have checked `a` against 0xFFF (R44). -/
def Memory.read : Memory → Nat → Byte
  | [], a => Memory.initialByte a
  | c :: cs, a => if c.1 = a then c.2 else Memory.read cs a

/-- Sets the byte at `a`, keeping the list's form: rising addresses, no entry equal to the reset contents. -/
def Memory.put : Memory → Nat → Byte → Memory
  | [], a, b => if b = Memory.initialByte a then [] else [(a, b)]
  | c :: cs, a, b =>
    if a < c.1 then (if b = Memory.initialByte a then c :: cs else (a, b) :: c :: cs)
    else if a = c.1 then (if b = Memory.initialByte a then cs else (a, b) :: cs)
    else c :: Memory.put cs a b

/-- `MemWrite(a, 1, b)` (R8, R46). There is no byte above 0xFFF, and callers have checked `a` (R44). Log entry 24. -/
def Memory.write (m : Memory) (a : Nat) (b : Byte) : Memory :=
  if a < Config.memSize then Memory.put m a b else m

/-- Writes bytes at ascending addresses from `a` (R42, R45). -/
def Memory.writeBytes (m : Memory) (a : Nat) : List Byte → Memory
  | [] => m
  | b :: bs => Memory.writeBytes (Memory.write m a b) (a + 1) bs

/-- Reads `n` bytes at ascending addresses from `a` (R42, R45). -/
def Memory.readBytes (m : Memory) (a : Nat) : Nat → List Byte
  | 0 => []
  | n + 1 => Memory.read m a :: Memory.readBytes m (a + 1) n

/-- The canonical form from address `lo` up: addresses rise strictly from `lo`, stay below 0x1000, and no entry equals
what its address reads as when unlisted. -/
def Memory.wfFrom (lo : Nat) : Memory → Bool
  | [] => true
  | c :: cs => lo ≤ c.1 && c.1 < Config.memSize && c.2 != Memory.initialByte c.1 && Memory.wfFrom (c.1 + 1) cs

/-- The canonical form of a memory. -/
def Memory.wf (m : Memory) : Bool := Memory.wfFrom 0 m

end Sys2Proof.Machine
end

