-- ==== Sys2Proof/Machine/Ops.lean ====
section
/-!
DEFINITION. The named operations over the state: registers, program counter, call stack, output events, and the halt
sequence, which is the machine's only exception entry (spec 60_exceptions.md R172). There is no return from it (R175).
-/

namespace Sys2Proof.Machine

/-- What a meaning answers. -/
abbrev Result := Host.Outcome State Fault Refusal

/-- `V[x]` (R7, R10). -/
def State.getReg (s : State) (x : Nibble) : Byte := s.v[x.toNat]'x.isLt

/-- `V[x] <- b` (R7, R10). -/
def State.setReg (s : State) (x : Nibble) (b : Byte) : State := { s with v := s.v.set x.toNat b x.isLt }

/-- Replaces the register file. -/
def State.setRegs (s : State) (v : Vector Byte 16) : State := { s with v := v }

/-- `pc <- a` (R7). -/
def State.setPc (s : State) (a : Addr) : State := { s with pc := a }

/-- `I <- a` (R17). -/
def State.setIdx (s : State) (a : Addr) : State := { s with idx := a }

/-- `DT <- b` (R18). -/
def State.setDt (s : State) (b : Byte) : State := { s with dt := b }

/-- `ST <- b` (R19). -/
def State.setSt (s : State) (b : Byte) : State := { s with st := b }

/-- Replaces the memory. -/
def State.setMem (s : State) (m : Memory) : State := { s with mem := m }

/-- Replaces the pixel grid. -/
def State.setPix (s : State) (g : Grid) : State := { s with pix := g }

/-- `Skip()` (R89): pc + 2 modulo 4096. Log entry 11. -/
def State.skip (s : State) : State := s.setPc (s.pc + 2)

/-- `if c then Skip()` (R84 to R87, R151, R152). -/
def State.skipIf (s : State) (c : Bool) : State := if c then s.skip else s

/-- The most recently pushed return address, `stack[sp]` (R21). -/
def State.top (s : State) : Addr := s.stack[s.sp.toNat]'s.sp.isLt

/-- `sp <- sp + 1; stack[sp] <- a` (R83). -/
def State.push (s : State) (a : Addr) : State :=
  { s with sp := s.sp + 1, stack := s.stack.set (s.sp + 1).toNat a (s.sp + 1).isLt }

/-- `pc <- stack[sp]; sp <- sp - 1` (R81). -/
def State.pop (s : State) : State := { s with pc := s.top, sp := s.sp - 1 }

/-- `emit e` (R9): the event joins those emitted so far. Log entry 8. -/
def State.emit (s : State) (e : Output) : State := { s with emitted := e :: s.emitted }

/-- The byte `draw rnd8()` yields now (R9, R112): a free value. Log entry 7. -/
def State.drawn (s : State) : Byte := Config.rnd8 s.draws

/-- One byte of `rnd8` has been drawn (R112): the next draw is a fresh one. -/
def State.countDraw (s : State) : State := { s with draws := s.draws + 1 }

/-- `wait_x <- x; state <- WaitingForKey` (R154). -/
def State.park (s : State) (x : Nibble) : State := { s with waitX := x, executor := .waitingForKey }

/-- The cause codes (R170). -/
def HaltCause.code : HaltCause → BitVec 3
  | .unknownOpcode => 1
  | .stackOverflow => 2
  | .stackUnderflow => 3
  | .addressFault => 4

/-- `Halt(cause, word, addr)` (R172): the latches are written, the executor halts, one `diag` is emitted, and nothing
else changes. Log entries 14 and 22. -/
def State.halt (s : State) (c : HaltCause) (word : InsnWord) (addr : BitVec 13) : State :=
  { s with
    haltCause := c.code
    haltWord := word
    haltAddr := addr
    executor := .halted
    emitted := .diag c.code word addr :: s.emitted }

/-- The address the instruction was fetched from, from the post-fetch pc: (pc - 2) mod 4096 (R171). Log entry 10. -/
def State.fetchedFrom (s : State) : Addr := s.pc - 2

/-- `raise` of a stack fault by instruction `i` (R171): the word and the address it was fetched from are recorded.
Log entry 10. -/
def State.stackFault (s : State) (c : HaltCause) (i : Instr) : State :=
  s.halt c (encode i) (s.fetchedFrom.setWidth 13)

/-- `raise AddressFault(hi)` by instruction `i` (R171): the word and the highest byte address are recorded. -/
def State.dataFault (s : State) (i : Instr) (hi : Nat) : State :=
  s.halt .addressFault (encode i) (BitVec.ofNat 13 hi)

end Sys2Proof.Machine
end

