-- ==== Sys2Proof/Machine/Operands.lean ====
section
/-!
DEFINITION. The operand forms (spec 30_encoding.md R63; 42_index_memory.md R126): zero-extended registers, the address
range an instruction touches through I with its bounds check (20_memory.md R44), the registers V0 to Vx, the decimal
digits, and the key test (44_input_timers.md R150).
-/

namespace Sys2Proof.Machine

/-- `zext_12(b)` (R63). -/
def zextAddr (b : Byte) : Addr := b.setWidth 12

/-- The highest byte address of a data access of `len` bytes at I, len ≥ 1, as an integer without wrap (R44, R126). -/
def State.highest (s : State) (len : Nat) : Nat := s.idx.toNat + (len - 1)

/-- The access of `len` bytes at I stays at or below 0xFFF; an access of no bytes touches no address (R44). -/
def State.inBounds (s : State) (len : Nat) : Bool := decide (len = 0) || decide (s.highest len < Config.memSize)

/-- The bounds check of instruction `i`, made before any of its effects (R44, R173): `done` is the state after them.
Log entry 15. -/
def State.guardAccess (s : State) (i : Instr) (len : Nat) (done : State) : State :=
  if s.inBounds len then done else s.dataFault i (s.highest len)

/-- The bytes at I, I+1, ... (R42, R126). -/
def State.readAtI (s : State) (len : Nat) : List Byte := Memory.readBytes s.mem s.idx.toNat len

/-- Stores bytes at I, I+1, ... (R42, R126). -/
def State.storeAtI (s : State) (bs : List Byte) : State := s.setMem (Memory.writeBytes s.mem s.idx.toNat bs)

/-- How many registers V0 to Vx are (R124, R125). -/
def regCount (x : Nibble) : Nat := x.toNat + 1

/-- V0 to Vx inclusive (R124). -/
def State.regsUpTo (s : State) (x : Nibble) : List Byte := s.v.toList.take (regCount x)

/-- `V[j] <- b` for the bytes in order, from register `j` on (R125). -/
def putRegs : Vector Byte 16 → Nat → List Byte → Vector Byte 16
  | v, _, [] => v
  | v, j, b :: bs => putRegs (v.setIfInBounds j b) (j + 1) bs

/-- The hundreds, tens and units digits of a byte (R123): unsigned floor division. -/
def decimalDigits (b : Byte) : List Byte := [b / 100, b / 10 % 10, b % 10]

/-- `isPressed(b)` (R150): a key is pressed and its number equals `b` on all 8 bits. Log entry 18. -/
def State.isPressed (s : State) (b : Byte) : Bool := s.keyValid && s.key.setWidth 8 == b

end Sys2Proof.Machine
end

