-- ==== Sys2Proof/Machine/Control.lean ====
section
/-!
DEFINITION. The control-transfer instructions (spec 40_control_transfer.md R81 to R89). In every meaning `pc` already
holds the post-fetch value (R80). Log entry 10.
-/

namespace Sys2Proof.Machine

/-- `RET` (R81). Log entry 13. -/
def execRet (s : State) : Result :=
  if s.sp = 0 then .next (s.stackFault .stackUnderflow .ret) else .next s.pop

/-- `JP nnn` (R82). -/
def execJp (nnn : Addr) (s : State) : Result := .next (s.setPc nnn)

/-- `CALL nnn` (R83). Log entry 13. -/
def execCall (nnn : Addr) (s : State) : Result :=
  if s.sp = 15 then .next (s.stackFault .stackOverflow (.call nnn)) else .next ((s.push s.pc).setPc nnn)

/-- `SE Vx, kk` (R84). -/
def execSeImm (x : Nibble) (kk : Byte) (s : State) : Result := .next (s.skipIf (s.getReg x == kk))

/-- `SNE Vx, kk` (R85). -/
def execSneImm (x : Nibble) (kk : Byte) (s : State) : Result := .next (s.skipIf (s.getReg x != kk))

/-- `SE Vx, Vy` (R86). -/
def execSeReg (x y : Nibble) (s : State) : Result := .next (s.skipIf (s.getReg x == s.getReg y))

/-- `SNE Vx, Vy` (R87). -/
def execSneReg (x y : Nibble) (s : State) : Result := .next (s.skipIf (s.getReg x != s.getReg y))

/-- `JP V0, nnn` (R88). -/
def execJpV0 (nnn : Addr) (s : State) : Result := .next (s.setPc (nnn + zextAddr (s.getReg 0)))

end Sys2Proof.Machine
end

