-- ==== Sys2Proof/Machine/Flags.lean ====
section
/-!
DEFINITION. The flag computations (spec 10_state.md R16; 41_load_alu.md R100, R107 to R111). VF is the machine's only
flag; the value written is 0x00 or 0x01 (D27).
-/

namespace Sys2Proof.Machine

/-- `c ? 0x01 : 0x00` (R16). -/
def flagByte (c : Bool) : Byte := if c then 0x01 else 0x00

/-- `V[0xF] <- c ? 0x01 : 0x00` (R16). -/
def State.setFlag (s : State) (c : Bool) : State := s.setReg 0xF (flagByte c)

/-- `zext_9(a) + zext_9(b)` (R107). -/
def sum9 (a b : Byte) : BitVec 9 := a.setWidth 9 + b.setWidth 9

/-- The carry out of the 8-bit addition: the 9-bit sum exceeds 255 (R107). -/
def carryOf (sum : BitVec 9) : Bool := 255 < sum.toNat

/-- The "no borrow" flag: unsigned and strictly greater (R108, R110). -/
def strictlyGreater (a b : Byte) : Bool := b.toNat < a.toNat

/-- The bit a right shift loses (R109). -/
def lowBit (b : Byte) : Bool := b.getLsbD 0

/-- The bit a left shift loses (R111). -/
def highBit (b : Byte) : Bool := b.getLsbD 7

end Sys2Proof.Machine
end

