-- ==== Sys2Proof/Machine/Display.lean ====
section
/-!
DEFINITION. The display instructions (spec 43_display.md R140 to R142).
-/

namespace Sys2Proof.Machine

/-- `CLS` (R140): every pixel off, then one `disp_changed`. Log entry 19. -/
def execCls (s : State) : Result := .next ((s.setPix Grid.blank).emit .dispChanged)

/-- The blit a `DRW` performs (R141): the coordinates are read before VF is written. -/
def State.spriteBlit (s : State) (x y n : Nibble) : BlitState :=
  blit (s.getReg x) (s.getReg y) (s.readAtI n.toNat) s.pix

/-- `DRW Vx, Vy, n` (R141): the blit, then VF, then one `disp_changed`. Log entries 15, 16 and 19. -/
def execDrw (x y n : Nibble) (s : State) : Result :=
  let done := s.spriteBlit x y n
  .next (s.guardAccess (.drw x y n) n.toNat (((s.setPix done.pix).setFlag done.coll).emit .dispChanged))

end Sys2Proof.Machine
end

