-- ==== Sys2Proof/Machine/IndexMemory.lean ====
section
/-!
DEFINITION. Index-register and memory instructions (spec 42_index_memory.md R120 to R126). I is never changed by an
access; the bounds check comes before every effect (20_memory.md R44). Log entry 15.
-/

namespace Sys2Proof.Machine

/-- `LD I, nnn` (R120). -/
def execLdI (nnn : Addr) (s : State) : Result := .next (s.setIdx nnn)

/-- `ADD I, Vx` (R121): modulo 4096, no flag. -/
def execAddI (x : Nibble) (s : State) : Result := .next (s.setIdx (s.idx + zextAddr (s.getReg x)))

/-- `LD F, Vx` (R122): the whole byte is multiplied by 5. -/
def execLdF (x : Nibble) (s : State) : Result := .next (s.setIdx (zextAddr (s.getReg x) * BitVec.ofNat 12 Config.glyphLen))

/-- `LD B, Vx` (R123): the three decimal digits, most significant at I. -/
def execLdB (x : Nibble) (s : State) : Result :=
  .next (s.guardAccess (.ldB x) 3 (s.storeAtI (decimalDigits (s.getReg x))))

/-- `LD [I], Vx` (R124): V0 to Vx at ascending addresses from I. -/
def execStoreRegs (x : Nibble) (s : State) : Result :=
  .next (s.guardAccess (.storeRegs x) (regCount x) (s.storeAtI (s.regsUpTo x)))

/-- `LD Vx, [I]` (R125): V0 to Vx from ascending addresses from I. -/
def execLoadRegs (x : Nibble) (s : State) : Result :=
  .next (s.guardAccess (.loadRegs x) (regCount x) (s.setRegs (putRegs s.v 0 (s.readAtI (regCount x)))))

end Sys2Proof.Machine
end

