-- ==== Sys2Proof/Machine/InputTimers.lean ====
section
/-!
DEFINITION. Keypad and timer instructions (spec 44_input_timers.md R150 to R156).
-/

namespace Sys2Proof.Machine

/-- `SKP Vx` (R151). -/
def execSkp (x : Nibble) (s : State) : Result := .next (s.skipIf (s.isPressed (s.getReg x)))

/-- `SKNP Vx` (R152). -/
def execSknp (x : Nibble) (s : State) : Result := .next (s.skipIf (!s.isPressed (s.getReg x)))

/-- `LD Vx, DT` (R153). -/
def execLdVxDt (x : Nibble) (s : State) : Result := .next (s.setReg x s.dt)

/-- `LD Vx, K` (R154): parks; a later press writes V[x] (R182). Log entry 17. -/
def execLdVxK (x : Nibble) (s : State) : Result := .next (s.park x)

/-- `LD DT, Vx` (R155). -/
def execLdDtVx (x : Nibble) (s : State) : Result := .next (s.setDt (s.getReg x))

/-- `LD ST, Vx` (R156). -/
def execLdStVx (x : Nibble) (s : State) : Result := .next (s.setSt (s.getReg x))

end Sys2Proof.Machine
end

