-- ==== Sys2Proof/Machine/LoadAlu.lean ====
section
/-!
DEFINITION. Register load, arithmetic, logic, shift and random instructions (spec 41_load_alu.md R100 to R112). The
statements of an operation run in the order written, each reading the registers as the ones before left them (R100, D3).
Log entry 12.
-/

namespace Sys2Proof.Machine

/-- `LD Vx, kk` (R101). -/
def execLdImm (x : Nibble) (kk : Byte) (s : State) : Result := .next (s.setReg x kk)

/-- `ADD Vx, kk` (R102): no flag. -/
def execAddImm (x : Nibble) (kk : Byte) (s : State) : Result := .next (s.setReg x (s.getReg x + kk))

/-- `LD Vx, Vy` (R103). -/
def execLdReg (x y : Nibble) (s : State) : Result := .next (s.setReg x (s.getReg y))

/-- `OR Vx, Vy` (R104): VF is left alone. -/
def execOrReg (x y : Nibble) (s : State) : Result := .next (s.setReg x (s.getReg x ||| s.getReg y))

/-- `AND Vx, Vy` (R105): VF is left alone. -/
def execAndReg (x y : Nibble) (s : State) : Result := .next (s.setReg x (s.getReg x &&& s.getReg y))

/-- `XOR Vx, Vy` (R106): VF is left alone. -/
def execXorReg (x y : Nibble) (s : State) : Result := .next (s.setReg x (s.getReg x ^^^ s.getReg y))

/-- `ADD Vx, Vy` (R107): the sum, then the flag, then the result. -/
def execAddReg (x y : Nibble) (s : State) : Result :=
  let sum := sum9 (s.getReg x) (s.getReg y)
  .next ((s.setFlag (carryOf sum)).setReg x (sum.setWidth 8))

/-- `SUB Vx, Vy` (R108): the flag first; the difference re-reads the registers. -/
def execSubReg (x y : Nibble) (s : State) : Result :=
  let s1 := s.setFlag (strictlyGreater (s.getReg x) (s.getReg y))
  .next (s1.setReg x (s1.getReg x - s1.getReg y))

/-- `SHR Vx` (R109): the flag first; the shift re-reads V[x]. The y field is ignored. -/
def execShr (x _y : Nibble) (s : State) : Result :=
  let s1 := s.setFlag (lowBit (s.getReg x))
  .next (s1.setReg x (s1.getReg x >>> 1))

/-- `SUBN Vx, Vy` (R110): the flag first; the difference re-reads the registers. -/
def execSubnReg (x y : Nibble) (s : State) : Result :=
  let s1 := s.setFlag (strictlyGreater (s.getReg y) (s.getReg x))
  .next (s1.setReg x (s1.getReg y - s1.getReg x))

/-- `SHL Vx` (R111): the flag first; the shift re-reads V[x]. The y field is ignored. -/
def execShl (x _y : Nibble) (s : State) : Result :=
  let s1 := s.setFlag (highBit (s.getReg x))
  .next (s1.setReg x (s1.getReg x <<< 1))

/-- `RND Vx, kk` (R112): one fresh byte of the oracle, under the mask. Log entry 7. -/
def execRnd (x : Nibble) (kk : Byte) (s : State) : Result := .next (s.countDraw.setReg x (s.drawn &&& kk))

end Sys2Proof.Machine
end

