-- ==== Sys2Proof/Machine/Events.lean ====
section
/-!
DEFINITION. The steps of the timer and keypad agents and what the renderer and the audio driver read (spec
60_exceptions.md R177 to R184).
-/

namespace Sys2Proof.Machine

/-- Down by one, clamped at 0 (R177). -/
def countDown (b : Byte) : Byte := if b = 0 then 0 else b - 1

/-- `timer_tick` (R177): both timers, in every executor state. Log entry 21. -/
def State.timerTick (s : State) : State := (s.setDt (countDown s.dt)).setSt (countDown s.st)

/-- The pressed-key slot after `press(k)` (R181): the last event wins. -/
def State.keyDown (s : State) (k : Nibble) : State := { s with keyValid := true, key := k }

/-- `EndKeyWait(k)` (R182): `V[wait_x] <- zext_8(k); state <- Running`. Log entry 17. -/
def State.endKeyWait (s : State) (k : Nibble) : State :=
  { s.setReg s.waitX (k.setWidth 8) with executor := .running }

/-- `press(k)` (R181, R182): a press while the executor waits for a key also ends the wait. -/
def State.press (s : State) (k : Nibble) : State :=
  match s.executor with
  | .waitingForKey => (s.keyDown k).endKeyWait k
  | .running => s.keyDown k
  | .halted => s.keyDown k

/-- `release` (R181): the slot is emptied; `key` keeps its last value. -/
def State.release (s : State) : State := { s with keyValid := false }

/-- `tone_active` (R179): the level output, 1 exactly while ST > 0. -/
def State.toneActive (s : State) : Bool := 0 < s.st.toNat

end Sys2Proof.Machine
end

