-- ==== Sys2Proof/Machine/Cycle.lean ====
section
/-!
DEFINITION. The execution cycle (spec 40_control_transfer.md R80) and the order of the agents' steps (20_memory.md R50,
R51).
-/

namespace Sys2Proof.Machine

/-- `MemRead(pc, 2)` (R8, R41): the byte at pc is the more significant one. -/
def State.fetchWord (s : State) : InsnWord :=
  wordOfBytes (Memory.read s.mem s.pc.toNat) (Memory.read s.mem (s.pc.toNat + 1))

/-- `pc <- (p + 2) mod 4096` (R80, D2): the post-fetch pc. Log entry 11. -/
def State.advance (s : State) : State := s.setPc (s.pc + 2)

/-- `raise AddressFault(0x1000)` by the fetch at 0xFFF (R80, R171): pc stays, the word is recorded as 0. -/
def State.fetchFault (s : State) : State := s.halt .addressFault 0x0000 0x1000

/-- `raise UnknownOpcode(w, p)` (R70, R171), p being the state's pc; the fetch's advance of pc stands. Log entry 14. -/
def State.unknownOpcode (s : State) (w : InsnWord) : State := s.advance.halt .unknownOpcode w (s.pc.setWidth 13)

/-- A cycle in `Running` (R80): fetch, decode, execute. -/
def State.runCycle (s : State) : Result :=
  if s.pc = 0xFFF then .next s.fetchFault
  else
    match decodeWord s.fetchWord with
    | .unmatched w => .next (s.unknownOpcode w)
    | .instr i => exec i s.advance

/-- `exec_tick` (R80): in `WaitingForKey` and in `Halted` nothing changes. Log entry 9. -/
def State.execTick (s : State) : Result :=
  match s.executor with
  | .running => s.runCycle
  | .waitingForKey => .next s
  | .halted => .next s

/-- One event, performed atomically (R50, R51). -/
def State.perform (s : State) (e : Event) : Result :=
  match e with
  | .execTick => s.execTick
  | .timerTick => .next s.timerTick
  | .press k => .next (s.press k)
  | .release => .next s.release

/-- Replaces the events still to come. -/
def State.setAgenda (s : State) (a : List Event) : State := { s with agenda := a }

/-- The next event of the total order (R51) is performed; when none is listed it is `exec_tick`. Log entries 5 and 6. -/
def State.nextEvent (s : State) : Result :=
  match s.agenda with
  | [] => s.perform .execTick
  | e :: rest => (s.setAgenda rest).perform e

end Sys2Proof.Machine
end

