-- ==== Sys2Proof/Machine/Step.lean ====
section
/-!
DEFINITION. One step of the machine: one atomic step of one agent (spec 20_memory.md R50, R51).
-/

namespace Sys2Proof.Machine

/-- The next event of the total order is performed. -/
def step (s : State) : Host.Outcome State Fault Refusal := s.nextEvent

/-- `s` with the opcode table's instruction stored where the next step fetches, and made to fetch it: the executor runs,
no other agent's event comes first, and a pc of 0xFFF, from which no word can be fetched (R44), is moved to 0x200.
Log entry 4. -/
def State.withFetchWord (s : State) (nbits w : Nat) : State :=
  let p : Addr := if s.pc = 0xFFF then 0x200 else s.pc
  { s with
    mem := Memory.writeBytes s.mem p.toNat (tableBytes nbits w)
    pc := p
    executor := .running
    agenda := [] }

end Sys2Proof.Machine
end

