-- ==== Sys2Proof/Machine/Construct.lean ====
section
/-!
DEFINITION. Construction, the block's only reset (spec 70_reset_and_hazards.md R200 to R203).
-/

namespace Sys2Proof.Machine

/-- `construct_status` (R202), with the machine where there is one. -/
inductive ConstructStatus where
  /-- `Ok`: the new machine instance. -/
  | ok (s : State)
  /-- `InvalidRom`: no machine exists. -/
  | invalidRom
  deriving DecidableEq, Repr

/-- The memory after construction (R26, R201): the font first, then the program image. -/
def loadImage (font : Vector Byte Config.fontLen) (rom : List Byte) : Memory :=
  Memory.writeBytes (Memory.writeBytes State.reset.mem 0 font.toList) Config.progBase rom

/-- `construct(ROM)` (R201, R202) with the parameter FONT (R27). The new machine's agenda is empty, as at reset: DESIGN
CHOICE, log entry 30. Log entries 2, 4 and 20. -/
def construct (font : Vector Byte Config.fontLen) (rom : Image) : ConstructStatus :=
  if rom.wellFormed then .ok { State.reset with mem := loadImage font (rom.getD []) } else .invalidRom

end Sys2Proof.Machine
end

