-- ==== Sys2Proof/Safety.lean ====
section
/-!
DEFINITION. What the statements speak of: the event a step performs, the spec's tables as functions of the state before
(the fault table R171, the program counter table R14, the flag and register writers R16, the sprite's pixels R142), and
the invariants.
-/

namespace Sys2Proof

open Machine

/-! ### The event a step performs (20_memory.md R51) -/

/-- The event the next step performs: the agenda's first, or `exec_tick` when the agenda is empty. -/
def Machine.State.upcoming (s : State) : Event := s.agenda.head?.getD .execTick

/-- The next step runs an execution cycle: the event is `exec_tick` and the executor is `Running` (R80). -/
def Machine.State.cycles (s : State) : Prop := s.upcoming = .execTick ∧ s.executor = .running

/-- Applies `f` to a next state and leaves a stop as it is. -/
def mapNext (f : State → State) : Result → Result
  | .next s => .next (f s)
  | .fault r => .fault r
  | .refused r => .refused r

/-! ### Frames: what an instruction leaves alone -/

/-- Every byte of memory reads as before. -/
def KeepsMemory (s t : State) : Prop := ∀ a, t.mem.read a = s.mem.read a

/-- Nothing but registers changed, and of those none outside `changed`. -/
def OnlyRegisters (changed : Nibble → Prop) (s t : State) : Prop :=
  t = { s with v := t.v } ∧ (∀ j, ¬ changed j → t.getReg j = s.getReg j) ∧ KeepsMemory s t

/-- Nothing but pc changed. -/
def OnlyPc (s t : State) : Prop := t = { s with pc := t.pc } ∧ KeepsMemory s t

/-- Nothing but I changed. -/
def OnlyIndex (s t : State) : Prop := t = { s with idx := t.idx } ∧ KeepsMemory s t

/-- Nothing but memory changed, and of that no byte outside the `len` bytes from address `a` on. -/
def OnlyBytes (a len : Nat) (s t : State) : Prop :=
  t = { s with mem := t.mem } ∧ ∀ b, b < a ∨ a + len ≤ b → t.mem.read b = s.mem.read b

/-! ### The fault table (60_exceptions.md R171) -/

/-- A row of the fault table: what is recorded, and pc afterwards. -/
structure FaultRecord where
  cause : HaltCause
  word : InsnWord
  addr : Nat
  pc : Nat
  deriving DecidableEq, Repr

/-- The address fault of an access to `len` bytes from I on (R44): the highest address, where it exceeds 0xFFF. -/
def Machine.State.boundsFault (s : State) (len : Nat) : Option (HaltCause × Nat) :=
  if 1 ≤ len ∧ 0xFFF < s.idx.toNat + len - 1 then some (.addressFault, s.idx.toNat + len - 1) else none

/-- The fault an instruction raises in a state, with the address recorded when it was fetched from `p` (R171). -/
def Instr.faultIn (i : Instr) (s : State) (p : Nat) : Option (HaltCause × Nat) :=
  match i with
  | .call _ => if s.sp.toNat = 15 then some (.stackOverflow, p) else none
  | .ret => if s.sp.toNat = 0 then some (.stackUnderflow, p) else none
  | .drw _ _ n => s.boundsFault n.toNat
  | .ldB _ => s.boundsFault 3
  | .storeRegs x => s.boundsFault (x.toNat + 1)
  | .loadRegs x => s.boundsFault (x.toNat + 1)
  | .cls | .jp _ | .seImm _ _ | .sneImm _ _ | .seReg _ _ | .ldImm _ _ | .addImm _ _ | .ldReg _ _ => none
  | .orReg _ _ | .andReg _ _ | .xorReg _ _ | .addReg _ _ | .subReg _ _ | .shr _ _ | .subnReg _ _ | .shl _ _ => none
  | .sneReg _ _ | .ldI _ | .jpV0 _ | .rnd _ _ | .skp _ | .sknp _ => none
  | .ldVxDt _ | .ldVxK _ | .ldDtVx _ | .ldStVx _ | .addI _ | .ldF _ => none

/-- The fault of the cycle the state is about to run (R171), or none: fetch, then decode, then the instruction (R174). -/
def Machine.State.cycleFault (s : State) : Option FaultRecord :=
  if s.pc = 0xFFF then some ⟨.addressFault, 0x0000, 0x1000, 0xFFF⟩
  else
    match decodeWord s.fetchWord with
    | .unmatched _ => some ⟨.unknownOpcode, s.fetchWord, s.pc.toNat, (s.pc.toNat + 2) % 4096⟩
    | .instr i =>
      match i.faultIn s s.pc.toNat with
      | some (c, a) => some ⟨c, s.fetchWord, a, (s.pc.toNat + 2) % 4096⟩
      | none => none

/-- The state the fault table and the halt sequence (R171, R172) give. -/
def Machine.State.haltedBy (s : State) (r : FaultRecord) : State :=
  { s with
    pc := BitVec.ofNat 12 r.pc
    haltCause := r.cause.code
    haltWord := r.word
    haltAddr := BitVec.ofNat 13 r.addr
    executor := .halted
    emitted := .diag r.cause.code r.word (BitVec.ofNat 13 r.addr) :: s.emitted }

/-- The cycle the state is about to run executes `LD Vx, K` (R183). -/
def Machine.State.aboutToWait (s : State) : Bool :=
  match decodeWord s.fetchWord with
  | .instr (.ldVxK _) => true
  | _ => false

/-! ### The program counter table (10_state.md R14) -/

/-- `pc` at the end of a cycle that runs `i`, from the state after the fetch: `p2` is its pc (R14). -/
def Instr.pcAfter (i : Instr) (s : State) : Nat :=
  let p2 := s.pc.toNat
  let skipped (c : Bool) : Nat := if c then (p2 + 2) % 4096 else p2
  match i with
  | .ret => if s.sp.toNat = 0 then p2 else s.top.toNat
  | .jp nnn => nnn.toNat
  | .call nnn => if s.sp.toNat = 15 then p2 else nnn.toNat
  | .seImm x kk => skipped (decide (s.getReg x = kk))
  | .sneImm x kk => skipped (decide (s.getReg x ≠ kk))
  | .seReg x y => skipped (decide (s.getReg x = s.getReg y))
  | .sneReg x y => skipped (decide (s.getReg x ≠ s.getReg y))
  | .skp x => skipped (s.isPressed (s.getReg x))
  | .sknp x => skipped (!s.isPressed (s.getReg x))
  | .jpV0 nnn => (nnn.toNat + (s.getReg 0).toNat) % 4096
  | .cls | .ldImm _ _ | .addImm _ _ | .ldReg _ _ | .orReg _ _ | .andReg _ _ | .xorReg _ _ | .addReg _ _ => p2
  | .subReg _ _ | .shr _ _ | .subnReg _ _ | .shl _ _ | .ldI _ | .rnd _ _ | .drw _ _ _ => p2
  | .ldVxDt _ | .ldVxK _ | .ldDtVx _ | .ldStVx _ | .addI _ | .ldF _ | .ldB _ | .storeRegs _ | .loadRegs _ => p2

/-! ### Which registers and bytes an instruction may write -/

/-- The instruction writes VF as a flag (R16): six instructions, no others. -/
def Instr.writesFlag : Instr → Bool
  | .addReg _ _ | .subReg _ _ | .shr _ _ | .subnReg _ _ | .shl _ _ | .drw _ _ _ => true
  | .cls | .ret | .jp _ | .call _ | .seImm _ _ | .sneImm _ _ | .seReg _ _ | .ldImm _ _ | .addImm _ _ | .ldReg _ _ => false
  | .orReg _ _ | .andReg _ _ | .xorReg _ _ | .sneReg _ _ | .ldI _ | .jpV0 _ | .rnd _ _ | .skp _ | .sknp _ => false
  | .ldVxDt _ | .ldVxK _ | .ldDtVx _ | .ldStVx _ | .addI _ | .ldF _ | .ldB _ | .storeRegs _ | .loadRegs _ => false

/-- Register `j` is a destination register of the instruction (40 to 44). -/
def Instr.destines (i : Instr) (j : Nibble) : Bool :=
  match i with
  | .ldImm x _ | .addImm x _ | .rnd x _ | .ldVxDt x => decide (j = x)
  | .ldReg x _ | .orReg x _ | .andReg x _ | .xorReg x _ => decide (j = x)
  | .addReg x _ | .subReg x _ | .shr x _ | .subnReg x _ | .shl x _ => decide (j = x)
  | .loadRegs x => decide (j.toNat ≤ x.toNat)
  | .cls | .ret | .jp _ | .call _ | .seImm _ _ | .sneImm _ _ | .seReg _ _ | .sneReg _ _ => false
  | .ldI _ | .jpV0 _ | .drw _ _ _ | .skp _ | .sknp _ => false
  | .ldVxK _ | .ldDtVx _ | .ldStVx _ | .addI _ | .ldF _ | .ldB _ | .storeRegs _ => false

/-- How many bytes from I on the instruction stores (R40). -/
def Instr.stored : Instr → Nat
  | .ldB _ => 3
  | .storeRegs x => x.toNat + 1
  | .cls | .ret | .jp _ | .call _ | .seImm _ _ | .sneImm _ _ | .seReg _ _ | .ldImm _ _ | .addImm _ _ | .ldReg _ _ => 0
  | .orReg _ _ | .andReg _ _ | .xorReg _ _ | .addReg _ _ | .subReg _ _ | .shr _ _ | .subnReg _ _ | .shl _ _ => 0
  | .sneReg _ _ | .ldI _ | .jpV0 _ | .rnd _ _ | .drw _ _ _ | .skp _ | .sknp _ => 0
  | .ldVxDt _ | .ldVxK _ | .ldDtVx _ | .ldStVx _ | .addI _ | .ldF _ | .loadRegs _ => 0

/-- The instruction changes I (R17): three instructions, no others. -/
def Instr.writesIndex : Instr → Bool
  | .ldI _ | .addI _ | .ldF _ => true
  | .cls | .ret | .jp _ | .call _ | .seImm _ _ | .sneImm _ _ | .seReg _ _ | .ldImm _ _ | .addImm _ _ | .ldReg _ _ => false
  | .orReg _ _ | .andReg _ _ | .xorReg _ _ | .addReg _ _ | .subReg _ _ | .shr _ _ | .subnReg _ _ | .shl _ _ => false
  | .sneReg _ _ | .jpV0 _ | .rnd _ _ | .drw _ _ _ | .skp _ | .sknp _ => false
  | .ldVxDt _ | .ldVxK _ | .ldDtVx _ | .ldStVx _ | .ldB _ | .storeRegs _ | .loadRegs _ => false

/-- The instruction is `CALL` or `RET`, which alone reach the call stack (R55). -/
def Instr.usesStack : Instr → Bool
  | .ret | .call _ => true
  | .cls | .jp _ | .seImm _ _ | .sneImm _ _ | .seReg _ _ | .ldImm _ _ | .addImm _ _ | .ldReg _ _ => false
  | .orReg _ _ | .andReg _ _ | .xorReg _ _ | .addReg _ _ | .subReg _ _ | .shr _ _ | .subnReg _ _ | .shl _ _ => false
  | .sneReg _ _ | .ldI _ | .jpV0 _ | .rnd _ _ | .drw _ _ _ | .skp _ | .sknp _ => false
  | .ldVxDt _ | .ldVxK _ | .ldDtVx _ | .ldStVx _ | .addI _ | .ldF _ | .ldB _ | .storeRegs _ | .loadRegs _ => false

/-- The instruction is `CLS` or `DRW`, which alone reach the pixel grid (R54). -/
def Instr.usesDisplay : Instr → Bool
  | .cls | .drw _ _ _ => true
  | .ret | .jp _ | .call _ | .seImm _ _ | .sneImm _ _ | .seReg _ _ | .ldImm _ _ | .addImm _ _ | .ldReg _ _ => false
  | .orReg _ _ | .andReg _ _ | .xorReg _ _ | .addReg _ _ | .subReg _ _ | .shr _ _ | .subnReg _ _ | .shl _ _ => false
  | .sneReg _ _ | .ldI _ | .jpV0 _ | .rnd _ _ | .skp _ | .sknp _ => false
  | .ldVxDt _ | .ldVxK _ | .ldDtVx _ | .ldStVx _ | .addI _ | .ldF _ | .ldB _ | .storeRegs _ | .loadRegs _ => false

/-! ### The sprite's pixels (43_display.md R142) -/

/-- The sprite at (x0, y0), its `n` rows in `m` from address `a` on, has a 1 bit that lands on the pixel (cx, cy). -/
def SpriteCovers (m : Memory) (a : Nat) (x0 y0 : Byte) (n : Nibble) (cx : Fin 64) (cy : Fin 32) : Prop :=
  ∃ r b : Nat, r < n.toNat ∧ b < 8 ∧ (x0.toNat + b) % 64 = cx.val ∧ (y0.toNat + r) % 32 = cy.val ∧
    (m.read (a + r)).getLsbD (7 - b) = true

/-- The sprite that `DRW Vx, Vy, n` draws in a state covers the pixel (cx, cy) (R141, R142). -/
def Machine.State.sprite (s : State) (x y n : Nibble) (cx : Fin 64) (cy : Fin 32) : Prop :=
  SpriteCovers s.mem s.idx.toNat (s.getReg x) (s.getReg y) n cx cy

/-! ### Invariants -/

/-- The output event is a diagnostic report (R185). -/
def Machine.Output.isDiag : Output → Bool
  | .diag _ _ _ => true
  | .dispChanged => false

/-- The memory keeps its canonical form. -/
def MemoryInv (s : State) : Prop := s.mem.wf = true

/-- The halt record (R24, R172, R185): before a fault the latches are 0 and nothing has been reported; in `Halted` the
latches hold one of the four causes and exactly one report carrying their values has been emitted. -/
def HaltInv (s : State) : Prop :=
  match s.executor with
  | .halted =>
    (∃ c : HaltCause, s.haltCause = c.code) ∧
      s.emitted.filter Output.isDiag = [.diag s.haltCause s.haltWord s.haltAddr]
  | .running => s.haltCause = 0 ∧ s.haltWord = 0 ∧ s.haltAddr = 0 ∧ s.emitted.filter Output.isDiag = []
  | .waitingForKey => s.haltCause = 0 ∧ s.haltWord = 0 ∧ s.haltAddr = 0 ∧ s.emitted.filter Output.isDiag = []

end Sys2Proof
end

