-- ==== Sys2Proof/Certificates/Slice0/Obligations.lean ====
section
/-!
DEFINITION. The statements for the provers, from the spec's numbered rules, file by file. `exec i s` runs instruction
`i` on the state AFTER its fetch, so `s.pc` is the post-fetch pc p2 of the rules (40_control_transfer.md R80, R14).
Where a statement names the next event, the agenda is the model's way to say it: log entry 5, and log entry 6 for an
empty agenda, which is an execution tick; its being empty at reset and after construction is log entry 30.
-/

open Sys2Proof Sys2Proof.Machine

/-! ### Encoding (30_encoding.md) -/

/-- Words written out in the spec's examples decode to the instructions they stand for (30 section 3, the examples of
40 to 44); three unmatched words do not decode (95 T30, T33, T37). -/
def Obligations.SpecWordsDecode : Prop :=
  decodeWord 0x00E0 = .instr .cls ∧ decodeWord 0x00EE = .instr .ret ∧ decodeWord 0x1204 = .instr (.jp 0x204) ∧
  decodeWord 0x220A = .instr (.call 0x20A) ∧ decodeWord 0x4A07 = .instr (.sneImm 0xA 0x07) ∧
  decodeWord 0x8124 = .instr (.addReg 1 2) ∧ decodeWord 0xC10F = .instr (.rnd 1 0x0F) ∧
  decodeWord 0xD015 = .instr (.drw 0 1 5) ∧ decodeWord 0xE1A1 = .instr (.sknp 1) ∧
  decodeWord 0xF30A = .instr (.ldVxK 3) ∧ decodeWord 0xF255 = .instr (.storeRegs 2) ∧
  decodeWord 0x0000 = .unmatched 0x0000 ∧ decodeWord 0x5121 = .unmatched 0x5121 ∧
  decodeWord 0xF0FF = .unmatched 0xF0FF

/-- Decoding the word of a well-formed instruction gives the instruction back, with every operand at every value. -/
def Obligations.DecodeEncodeRoundTrip : Prop :=
  ∀ i : Instr, i.wellFormed = true → decodeWord (encode i) = .instr i

/-- A word that decodes is the word its instruction encodes to: each word has one meaning and no bit of it is dropped. -/
def Obligations.EncodeDecodeRoundTrip : Prop :=
  ∀ (w : InsnWord) (i : Instr), decodeWord w = .instr i → encode i = w

/-- R65 to R69: a word is the instruction of a row of the opcode map, with the operands its pattern shows, exactly when
(w & mask) = match; and R67: the y field of SHR and SHL changes nothing. -/
def Obligations.OpcodeMapSelectsInstruction : Prop :=
  (∀ (w : InsnWord) (r : MapRow), r ∈ opcodeMap →
    (w &&& r.mask = r.pattern ↔ ∃ i, decodeWord w = .instr i ∧ mnemonicOf i = r.mnemonic ∧ encode i = w)) ∧
  ∀ (x y y' : Nibble) (s : State),
    exec (.shr x y) s = exec (.shr x y') s ∧ exec (.shl x y) s = exec (.shl x y') s

/-- The set of unmatched words, family by family (30 section 4, the table of unmatched words). -/
def Obligations.UnmatchedWordsCharacterised : Prop :=
  ∀ w : InsnWord, decodeWord w = .unmatched w ↔
    ((fieldOp w).toNat = 0x0 ∧ w ≠ 0x00E0 ∧ w ≠ 0x00EE) ∨
    (((fieldOp w).toNat = 0x5 ∨ (fieldOp w).toNat = 0x9) ∧ (fieldN w).toNat ≠ 0) ∨
    ((fieldOp w).toNat = 0x8 ∧ (fieldN w).toNat ∈ [0x8, 0x9, 0xA, 0xB, 0xC, 0xD, 0xF]) ∨
    ((fieldOp w).toNat = 0xE ∧ (fieldKk w).toNat ∉ [0x9E, 0xA1]) ∨
    ((fieldOp w).toNat = 0xF ∧
      (fieldKk w).toNat ∉ [0x07, 0x0A, 0x15, 0x18, 0x1E, 0x29, 0x33, 0x55, 0x65])

/-! ### The cycle, the faults and the executor's states (40 section 1, 60 section 1) -/

/-- A step runs the decoded instruction: when a cycle is due, pc is not 0xFFF and the two bytes at pc decode to a
well-formed instruction, the step is that instruction on the state with pc advanced by 2 and the event consumed. That
the advance wraps is the spec's decision D2 (log entry 11); the agenda is the model's (log entries 5 and 6). -/
def Obligations.StepRunsDecodedInstruction : Prop :=
  ∀ (s : State) (i : Instr), s.cycles → s.pc ≠ 0xFFF → i.wellFormed = true →
    decodeBytes (s.mem.readBytes s.pc.toNat 2) = some (.instr i, []) →
    step s = exec i { s with pc := s.pc + 2, agenda := s.agenda.tail }

/-- A cycle whose fault the fault table gives halts the machine with exactly the recorded values, one report, pc as the
table says and nothing else changed (60 section 1; the policies are the spec's decisions D5 to D9, log entries 13 to 15
and 22). -/
def Obligations.FaultingCycleHaltsPrecisely : Prop :=
  ∀ (s : State) (r : FaultRecord), s.cycles → s.cycleFault = some r →
    step s = .next { s.haltedBy r with agenda := s.agenda.tail }

/-- An execution tick in WaitingForKey or Halted changes nothing (40 section 1; D24, log entry 9). -/
def Obligations.TickWithoutRunningChangesNothing : Prop :=
  ∀ s : State, s.upcoming = .execTick → s.executor ≠ .running → step s = .next { s with agenda := s.agenda.tail }

/-- The executor's state machine of 60 section 4, complete: for every state and every event the next executor state.
Which cycles raise a fault is the spec's decisions: the ends of the stack D5 and D6 (log entry 13), an unmatched word D7
(log entry 14), a byte address above 0xFFF D8 (log entry 15). That a tick outside `Running` does nothing is D24 (log
entry 9). That an empty agenda is an execution tick is the model's choice (log entry 6). -/
def Obligations.ExecutorStateMachine : Prop :=
  State.reset.executor = .running ∧
  ∀ s : State, ∃ t, step s = .next t ∧
    t.executor =
      match s.executor, s.upcoming with
      | .running, .execTick =>
        if s.cycleFault.isSome then .halted else if s.aboutToWait then .waitingForKey else .running
      | .running, .press _ => .running
      | .running, .release => .running
      | .running, .timerTick => .running
      | .waitingForKey, .press _ => .running
      | .waitingForKey, .execTick => .waitingForKey
      | .waitingForKey, .release => .waitingForKey
      | .waitingForKey, .timerTick => .waitingForKey
      | .halted, _ => .halted

/-- Every step performs exactly one event and consumes it; no agent's step adds or reorders events. The agenda is the
model's way to say the total order of 20 section 7 (D19, log entry 5). -/
def Obligations.EveryStepConsumesOneEvent : Prop :=
  ∀ s : State, ∃ t, step s = .next t ∧ t.agenda = s.agenda.tail

/-- Halted is final: from Halted every step leaves Halted, the latches, the reports and all else alone but the timers
and the key slot (60 section 1; D18, log entry 21). -/
def Obligations.HaltedIsFinal : Prop :=
  ∀ s : State, s.executor = .halted → ∃ t, step s = .next t ∧
    t = { s with dt := t.dt, st := t.st, keyValid := t.keyValid, key := t.key, agenda := s.agenda.tail } ∧
    KeepsMemory s t

/-- Every step keeps the halt record: no report before a fault, exactly one from then on, with the latched values
(60 section 4 on `diag`; D9, log entry 22). -/
def Obligations.EveryStepKeepsHaltRecord : Prop :=
  ∀ s t : State, HaltInv s → step s = .next t → HaltInv t

/-- Every step keeps the memory's canonical form: addresses rise, stay below 0x1000, and no entry repeats the reset
contents. The form is the model's (log entries 2, 3 and 24). -/
def Obligations.EveryStepKeepsMemoryForm : Prop :=
  ∀ s t : State, MemoryInv s → step s = .next t → MemoryInv t

/-- The halt record and the memory's canonical form hold at reset (log entries 1 to 3). -/
def Obligations.ResetMeetsInvariants : Prop := HaltInv State.reset ∧ MemoryInv State.reset

/-! ### Reset and construction (10 section 10, 70 section 1) -/

/-- What reset leaves (10 section 10): pc = 0x200 and Running are the source's; every other value is the spec's
decision D10, D4 or D9 (log entry 1). -/
def Obligations.ResetValues : Prop :=
  State.reset.pc = 0x200 ∧ State.reset.executor = .running ∧
  (∀ x, State.reset.getReg x = 0) ∧ State.reset.idx = 0 ∧ State.reset.dt = 0 ∧ State.reset.st = 0 ∧
  (∀ j : Nibble, State.reset.stack[j.toNat]'j.isLt = 0) ∧ State.reset.sp = 0 ∧ State.reset.waitX = 0 ∧
  State.reset.haltCause = 0 ∧ State.reset.haltWord = 0 ∧ State.reset.haltAddr = 0 ∧
  (∀ cx cy, State.reset.pix.lit cx cy = false) ∧ State.reset.keyValid = false ∧ State.reset.key = 0 ∧
  State.reset.toneActive = false ∧ ∀ a, 0x50 ≤ a → State.reset.mem.read a = 0

/-- Construction (70 section 1; D10, D22, log entries 3, 4 and 20): an absent, empty or too long image is refused; any
other gives the reset state with the font, the image at 0x200 and zeros elsewhere, for every FONT. -/
def Obligations.ConstructionLoadsImage : Prop :=
  ∀ (font : Vector Byte 80) (rom : Image),
    (rom = none ∨ rom = some [] ∨ (∃ bs, rom = some bs ∧ 0xE00 < bs.length) → construct font rom = .invalidRom) ∧
    ∀ bs, rom = some bs → 1 ≤ bs.length → bs.length ≤ 0xE00 →
      ∃ s, construct font rom = .ok s ∧ s = { State.reset with mem := s.mem } ∧ MemoryInv s ∧
        (∀ (j : Nat) (h : j < 80), s.mem.read j = font[j]) ∧
        (∀ a, 0x50 ≤ a → a < 0x200 → s.mem.read a = 0) ∧
        (∀ (j : Nat) (h : j < bs.length), s.mem.read (0x200 + j) = bs[j]) ∧
        ∀ a, 0x200 + bs.length ≤ a → s.mem.read a = 0

/-- The first cycle after construction fetches the word ROM[0] ++ ROM[1] from 0x200, the second byte being 0x00 for an
image of one byte (70 section 1; D22, log entry 20). That the new machine's next event is an execution tick is the
model's choice (log entries 6 and 30). -/
def Obligations.FirstFetchIsImageStart : Prop :=
  ∀ (font : Vector Byte 80) (b : Byte) (bs : List Byte) (s : State),
    construct font (some (b :: bs)) = .ok s → s.cycles ∧ s.pc = 0x200 ∧ s.fetchWord = b ++ bs.headD 0x00

/-! ### Control transfer (40_control_transfer.md) -/

/-- R82: JP nnn sets pc and nothing else. -/
def Obligations.JumpIsAbsolute : Prop :=
  ∀ (nnn : Addr) (s : State), ∃ t, exec (.jp nnn) s = .next t ∧ t.pc = nnn ∧ OnlyPc s t

/-- R88: JP V0, nnn adds the unsigned V0 modulo 4096 and changes pc alone. -/
def Obligations.IndexedJumpAddsV0 : Prop :=
  ∀ (nnn : Addr) (s : State), ∃ t, exec (.jpV0 nnn) s = .next t ∧
    t.pc.toNat = (nnn.toNat + (s.getReg 0).toNat) % 4096 ∧ OnlyPc s t

/-- R84 to R87: the four comparing instructions perform Skip() exactly when their condition holds, and otherwise do
nothing. What Skip() does at every pc is SkipsWrapAround. -/
def Obligations.SkipsOnComparison : Prop :=
  ∀ (x y : Nibble) (kk : Byte) (s : State),
    exec (.seImm x kk) s = .next (if s.getReg x = kk then s.skip else s) ∧
    exec (.sneImm x kk) s = .next (if s.getReg x = kk then s else s.skip) ∧
    exec (.seReg x y) s = .next (if s.getReg x = s.getReg y then s.skip else s) ∧
    exec (.sneReg x y) s = .next (if s.getReg x = s.getReg y then s else s.skip)

/-- At every pc a skip that is taken leaves (pc + 2) mod 4096 and one that is not leaves pc. That it wraps is the
spec's decision D2 (40 section 3, log entry 11). -/
def Obligations.SkipsWrapAround : Prop :=
  ∀ (x y : Nibble) (kk : Byte) (s : State),
    (∃ t, exec (.seImm x kk) s = .next t ∧ OnlyPc s t ∧
      t.pc.toNat = if s.getReg x = kk then (s.pc.toNat + 2) % 4096 else s.pc.toNat) ∧
    (∃ t, exec (.sneImm x kk) s = .next t ∧ OnlyPc s t ∧
      t.pc.toNat = if s.getReg x ≠ kk then (s.pc.toNat + 2) % 4096 else s.pc.toNat) ∧
    (∃ t, exec (.seReg x y) s = .next t ∧ OnlyPc s t ∧
      t.pc.toNat = if s.getReg x = s.getReg y then (s.pc.toNat + 2) % 4096 else s.pc.toNat) ∧
    (∃ t, exec (.sneReg x y) s = .next t ∧ OnlyPc s t ∧
      t.pc.toNat = if s.getReg x ≠ s.getReg y then (s.pc.toNat + 2) % 4096 else s.pc.toNat)

/-- CALL with room on the stack pushes the post-fetch pc and jumps; no other slot and nothing else changes (40 section
2; the empty stack at sp = 0 is the spec's decision D4, log entry 13). -/
def Obligations.CallPushesReturnAddress : Prop :=
  ∀ (nnn : Addr) (s : State), s.sp.toNat < 15 → ∃ t, exec (.call nnn) s = .next t ∧
    t.pc = nnn ∧ t.sp.toNat = s.sp.toNat + 1 ∧ t.top = s.pc ∧
    (∀ j : Nibble, j ≠ t.sp → t.stack[j.toNat]'j.isLt = s.stack[j.toNat]'j.isLt) ∧
    t = { s with pc := t.pc, sp := t.sp, stack := t.stack } ∧ KeepsMemory s t

/-- RET with a return address held loads it and pops; the slot keeps its value (40 section 2; D4, D6, log entry 13). -/
def Obligations.ReturnPopsReturnAddress : Prop :=
  ∀ s : State, 0 < s.sp.toNat → ∃ t, exec .ret s = .next t ∧
    t.pc = s.top ∧ t.sp.toNat + 1 = s.sp.toNat ∧ t = { s with pc := t.pc, sp := t.sp } ∧ KeepsMemory s t

/-- CALL followed by RET restores pc and sp, and changes nothing but the slot that was pushed (95 S2; 40 section 2). -/
def Obligations.CallThenReturnRestores : Prop :=
  ∀ (nnn : Addr) (s : State), s.sp.toNat < 15 → ∃ t u, exec (.call nnn) s = .next t ∧ exec .ret t = .next u ∧
    u.pc = s.pc ∧ u.sp = s.sp ∧ u = { s with stack := u.stack } ∧
    ∀ j : Nibble, j ≠ s.sp + 1 → u.stack[j.toNat]'j.isLt = s.stack[j.toNat]'j.isLt

/-- R55: the call stack is reached only by CALL and RET: any other instruction does the same whatever the stack and sp
hold, and leaves them as they are (so no store can reach a return address). -/
def Obligations.StackReachedOnlyByCallAndReturn : Prop :=
  ∀ (i : Instr) (s : State) (stack : Vector Addr 16) (sp : Nibble), i.usesStack = false →
    exec i { s with stack := stack, sp := sp } =
      mapNext (fun t => { t with stack := stack, sp := sp }) (exec i s)

/-- No step writes slot 0 of the call stack (10 section 4 on `stack`; D4, log entry 13). -/
def Obligations.StackSlotZeroIsNeverWritten : Prop :=
  ∀ s t : State, step s = .next t → t.stack[0] = s.stack[0]

/-- pc at the end of the cycle of every instruction, as the table of 10 section 2 gives it: every instruction answers a
next state (an inference the spec marks as its own; the wraps are D2, log entry 11). -/
def Obligations.ProgramCounterTable : Prop :=
  ∀ (i : Instr) (s : State), ∃ t, exec i s = .next t ∧ t.pc.toNat = i.pcAfter s

/-- A jump to itself is a fixed point of the execution tick: nothing at all changes (70 section 3, marked derived). -/
def Obligations.JumpToSelfIsFixedPoint : Prop :=
  ∀ s : State, s.agenda = [] → s.executor = .running → s.pc ≠ 0xFFF →
    decodeWord s.fetchWord = .instr (.jp s.pc) → step s = .next s

/-! ### Load, arithmetic, logic, shift, random (41_load_alu.md) -/

/-- R101, R103: the loads and the copy write V[x] and nothing else. -/
def Obligations.LoadsAndCopies : Prop :=
  ∀ (x y : Nibble) (kk : Byte) (s : State),
    (∃ t, exec (.ldImm x kk) s = .next t ∧ t.getReg x = kk ∧ OnlyRegisters (· = x) s t) ∧
    ∃ t, exec (.ldReg x y) s = .next t ∧ t.getReg x = s.getReg y ∧ OnlyRegisters (· = x) s t

/-- R102: ADD Vx, kk wraps modulo 256 and writes V[x] alone: no flag. -/
def Obligations.AddImmediateWraps : Prop :=
  ∀ (x : Nibble) (kk : Byte) (s : State), ∃ t, exec (.addImm x kk) s = .next t ∧
    (t.getReg x).toNat = ((s.getReg x).toNat + kk.toNat) % 256 ∧ OnlyRegisters (· = x) s t

/-- R104 to R106: OR, AND and XOR, bit by bit; VF is left alone unless it is the destination. -/
def Obligations.BitwiseLogic : Prop :=
  ∀ (x y : Nibble) (s : State),
    (∃ t, exec (.orReg x y) s = .next t ∧ OnlyRegisters (· = x) s t ∧
      ∀ k, (t.getReg x).getLsbD k = ((s.getReg x).getLsbD k || (s.getReg y).getLsbD k)) ∧
    (∃ t, exec (.andReg x y) s = .next t ∧ OnlyRegisters (· = x) s t ∧
      ∀ k, (t.getReg x).getLsbD k = ((s.getReg x).getLsbD k && (s.getReg y).getLsbD k)) ∧
    (∃ t, exec (.xorReg x y) s = .next t ∧ OnlyRegisters (· = x) s t ∧
      ∀ k, (t.getReg x).getLsbD k = ((s.getReg x).getLsbD k ^^ (s.getReg y).getLsbD k))

/-- R107: ADD Vx, Vy: V[x] is the sum modulo 256; VF is the carry unless x = F, where the sum overwrites it; the
operands are the old values, VF included. -/
def Obligations.AddWithCarry : Prop :=
  ∀ (x y : Nibble) (s : State), ∃ t, exec (.addReg x y) s = .next t ∧
    (t.getReg x).toNat = ((s.getReg x).toNat + (s.getReg y).toNat) % 256 ∧
    (x ≠ 0xF → t.getReg 0xF = if 255 < (s.getReg x).toNat + (s.getReg y).toNat then 1 else 0) ∧
    OnlyRegisters (fun j => j = x ∨ j = 0xF) s t

/-- SUB and SUBN away from VF: the wrapped difference and the strict no-borrow flag (41 section 4; the order of the
writes is the spec's decision D3, log entry 12, and cannot be seen here). -/
def Obligations.SubtractAwayFromVF : Prop :=
  ∀ (x y : Nibble) (s : State), x ≠ 0xF → y ≠ 0xF →
    (∃ t, exec (.subReg x y) s = .next t ∧
      (t.getReg x).toNat = ((s.getReg x).toNat + 256 - (s.getReg y).toNat) % 256 ∧
      t.getReg 0xF = (if (s.getReg y).toNat < (s.getReg x).toNat then 1 else 0) ∧
      OnlyRegisters (fun j => j = x ∨ j = 0xF) s t) ∧
    ∃ t, exec (.subnReg x y) s = .next t ∧
      (t.getReg x).toNat = ((s.getReg y).toNat + 256 - (s.getReg x).toNat) % 256 ∧
      t.getReg 0xF = (if (s.getReg x).toNat < (s.getReg y).toNat then 1 else 0) ∧
      OnlyRegisters (fun j => j = x ∨ j = 0xF) s t

/-- SUB and SUBN that name VF as an operand: the flag is written first and the difference re-reads it (the table of 41
section 1; the spec's decision D3, log entry 12). -/
def Obligations.SubtractNamingVF : Prop :=
  ∀ (z : Nibble) (s : State), z ≠ 0xF →
    let f : Nat := (s.getReg 0xF).toNat
    let a : Nat := (s.getReg z).toNat
    (∃ t, exec (.subReg 0xF z) s = .next t ∧ OnlyRegisters (· = 0xF) s t ∧
      (t.getReg 0xF).toNat = ((if a < f then 1 else 0) + 256 - a) % 256) ∧
    (∃ t, exec (.subReg z 0xF) s = .next t ∧ OnlyRegisters (fun j => j = z ∨ j = 0xF) s t ∧
      t.getReg 0xF = (if f < a then 1 else 0) ∧ (t.getReg z).toNat = (a + 256 - if f < a then 1 else 0) % 256) ∧
    (∃ t, exec (.subnReg 0xF z) s = .next t ∧ OnlyRegisters (· = 0xF) s t ∧
      (t.getReg 0xF).toNat = (a + 256 - if f < a then 1 else 0) % 256) ∧
    (∃ t, exec (.subnReg z 0xF) s = .next t ∧ OnlyRegisters (fun j => j = z ∨ j = 0xF) s t ∧
      t.getReg 0xF = (if a < f then 1 else 0) ∧ (t.getReg z).toNat = ((if a < f then 1 else 0) + 256 - a) % 256) ∧
    (∃ t, exec (.subReg 0xF 0xF) s = .next t ∧ OnlyRegisters (· = 0xF) s t ∧ t.getReg 0xF = 0) ∧
    ∃ t, exec (.subnReg 0xF 0xF) s = .next t ∧ OnlyRegisters (· = 0xF) s t ∧ t.getReg 0xF = 0

/-- SHR and SHL by one: away from VF the shifted value and the bit lost; on VF itself 0 for SHR, and 2 or 0 for SHL (41
section 5; the latter is the spec's decision D3, log entry 12). -/
def Obligations.ShiftsByOne : Prop :=
  ∀ (x y : Nibble) (s : State),
    (x ≠ 0xF →
      (∃ t, exec (.shr x y) s = .next t ∧ (t.getReg x).toNat = (s.getReg x).toNat / 2 ∧
        (t.getReg 0xF).toNat = (s.getReg x).toNat % 2 ∧ OnlyRegisters (fun j => j = x ∨ j = 0xF) s t) ∧
      ∃ t, exec (.shl x y) s = .next t ∧ (t.getReg x).toNat = (s.getReg x).toNat * 2 % 256 ∧
        (t.getReg 0xF).toNat = (s.getReg x).toNat / 128 ∧ OnlyRegisters (fun j => j = x ∨ j = 0xF) s t) ∧
    (∃ t, exec (.shr 0xF y) s = .next t ∧ t.getReg 0xF = 0 ∧ OnlyRegisters (· = 0xF) s t) ∧
    ∃ t, exec (.shl 0xF y) s = .next t ∧ (t.getReg 0xF).toNat = (s.getReg 0xF).toNat / 128 * 2 ∧
      OnlyRegisters (· = 0xF) s t

/-- RND draws exactly one byte, the oracle's next one, and loads it under the mask, whatever the oracle is: a mask of 0
gives 0 (41 section 6; the byte is the free value of D13, log entry 7). -/
def Obligations.RandomUnderMask : Prop :=
  ∀ (x : Nibble) (kk : Byte) (s : State), ∃ t, exec (.rnd x kk) s = .next t ∧
    t.getReg x = Config.rnd8 s.draws &&& kk ∧ (∀ k, kk.getLsbD k = false → (t.getReg x).getLsbD k = false) ∧
    t.draws = s.draws + 1 ∧ (∀ j, j ≠ x → t.getReg j = s.getReg j) ∧
    t = { s with v := t.v, draws := t.draws } ∧ KeepsMemory s t

/-- No instruction but those of the table of 10 section 3 writes VF as a flag, and no register outside an instruction's
destinations changes (10 sections 1 and 3; D3, D27, log entries 12 and 25). -/
def Obligations.RegisterFrame : Prop :=
  ∀ (i : Instr) (s t : State) (j : Nibble), exec i s = .next t → i.destines j = false →
    (j = 0xF → i.writesFlag = false) → t.getReg j = s.getReg j

/-! ### Index register and memory (42_index_memory.md, 20_memory.md) -/

/-- R120, R121, R122: the three instructions that write I, and nothing else. -/
def Obligations.IndexRegisterLoads : Prop :=
  ∀ (x : Nibble) (nnn : Addr) (s : State),
    (∃ t, exec (.ldI nnn) s = .next t ∧ t.idx = nnn ∧ OnlyIndex s t) ∧
    (∃ t, exec (.addI x) s = .next t ∧ t.idx.toNat = (s.idx.toNat + (s.getReg x).toNat) % 4096 ∧ OnlyIndex s t) ∧
    ∃ t, exec (.ldF x) s = .next t ∧ t.idx.toNat = (s.getReg x).toNat * 5 ∧ OnlyIndex s t

/-- LD B, Vx with its three bytes at or below 0xFFF stores the hundreds, tens and units digits and changes no other
byte (42 section 2; the bound is the spec's decision D8, log entry 15). -/
def Obligations.DecimalDigitsAreStored : Prop :=
  ∀ (x : Nibble) (s : State), MemoryInv s → s.idx.toNat + 2 ≤ 0xFFF → ∃ t, exec (.ldB x) s = .next t ∧
    (t.mem.read s.idx.toNat).toNat = (s.getReg x).toNat / 100 ∧
    (t.mem.read (s.idx.toNat + 1)).toNat = (s.getReg x).toNat / 10 % 10 ∧
    (t.mem.read (s.idx.toNat + 2)).toNat = (s.getReg x).toNat % 10 ∧
    OnlyBytes s.idx.toNat 3 s t

/-- LD [I], Vx with its bytes at or below 0xFFF stores V0 to Vx at ascending addresses and changes no other byte (42
section 2; D8, log entry 15). -/
def Obligations.RegistersAreStored : Prop :=
  ∀ (x : Nibble) (s : State), MemoryInv s → s.idx.toNat + x.toNat ≤ 0xFFF → ∃ t, exec (.storeRegs x) s = .next t ∧
    (∀ j : Nibble, j.toNat ≤ x.toNat → t.mem.read (s.idx.toNat + j.toNat) = s.getReg j) ∧
    OnlyBytes s.idx.toNat (x.toNat + 1) s t

/-- LD Vx, [I] with its bytes at or below 0xFFF loads V0 to Vx from ascending addresses and changes nothing else (42
section 3; D8, log entry 15). -/
def Obligations.RegistersAreLoaded : Prop :=
  ∀ (x : Nibble) (s : State), s.idx.toNat + x.toNat ≤ 0xFFF → ∃ t, exec (.loadRegs x) s = .next t ∧
    (∀ j : Nibble, j.toNat ≤ x.toNat → t.getReg j = s.mem.read (s.idx.toNat + j.toNat)) ∧
    OnlyRegisters (fun j => j.toNat ≤ x.toNat) s t

/-- After LD [I], Vx, an LD Vx, [I] with the same x reads the same bytes back, whatever the registers hold by then (42
section 2; D8). -/
def Obligations.StoreThenLoadGivesBack : Prop :=
  ∀ (x : Nibble) (s : State) (w : Vector Byte 16), MemoryInv s → s.idx.toNat + x.toNat ≤ 0xFFF →
    ∃ t u, exec (.storeRegs x) s = .next t ∧ exec (.loadRegs x) { t with v := w } = .next u ∧
      ∀ j : Nibble, j.toNat ≤ x.toNat → u.getReg j = s.getReg j

/-- A store is seen by the very next fetch: when I is the post-fetch pc, LD [I], Vx with x ≥ 1 makes V0 and V1 the next
instruction word (20 section 7; the spec's decision D20, log entry 23). -/
def Obligations.StoreIsSeenByNextFetch : Prop :=
  ∀ (x : Nibble) (s : State), MemoryInv s → s.idx = s.pc → 1 ≤ x.toNat → s.idx.toNat + x.toNat ≤ 0xFFF →
    ∃ t, exec (.storeRegs x) s = .next t ∧ t.fetchWord = s.getReg 0 ++ s.getReg 1

/-- No instruction changes a byte of memory outside the bytes it stores to: three from I on for LD B, x + 1 from I on
for LD [I], Vx, none for any other (20 section 1, the table of accesses; D8). -/
def Obligations.MemoryFrame : Prop :=
  ∀ (i : Instr) (s t : State) (a : Nat), exec i s = .next t →
    a < s.idx.toNat ∨ s.idx.toNat + i.stored ≤ a → t.mem.read a = s.mem.read a

/-- No instruction but LD I, ADD I and LD F changes I (10 section 4 on I; 42 section 4, marked derived). -/
def Obligations.IndexFrame : Prop :=
  ∀ (i : Instr) (s t : State), exec i s = .next t → i.writesIndex = false → t.idx = s.idx

/-! ### Display (43_display.md) -/

/-- CLS turns every pixel off, emits one `disp_changed` and changes nothing else (43 section 1; D25, log entry 19). -/
def Obligations.ClearTurnsEveryPixelOff : Prop :=
  ∀ s : State, ∃ t, exec .cls s = .next t ∧ (∀ cx cy, t.pix.lit cx cy = false) ∧
    t = { s with pix := t.pix, emitted := .dispChanged :: s.emitted } ∧ KeepsMemory s t

/-- DRW with its sprite at or below 0xFFF (or with no rows) toggles exactly the pixels the sprite's 1 bits land on, each
coordinate wrapping on its own, emits one `disp_changed`, and changes nothing else but VF (43 section 2; bit 7 first is
D15, no rows D14, the bound D8, log entries 15 and 16). -/
def Obligations.DrawTogglesSpritePixels : Prop :=
  ∀ (x y n : Nibble) (s : State), n.toNat = 0 ∨ s.idx.toNat + n.toNat - 1 ≤ 0xFFF →
    ∃ t, exec (.drw x y n) s = .next t ∧
      (∀ cx cy, t.pix.lit cx cy = true ↔ ¬ (s.pix.lit cx cy = true ↔ s.sprite x y n cx cy)) ∧
      (∀ j, j ≠ 0xF → t.getReg j = s.getReg j) ∧
      t = { s with v := t.v, pix := t.pix, emitted := .dispChanged :: s.emitted } ∧ KeepsMemory s t

/-- The collision flag of DRW: VF is 1 when some 1 bit of the sprite lands on a lit pixel, else 0 (43 section 2; D27). -/
def Obligations.DrawReportsCollision : Prop :=
  ∀ (x y n : Nibble) (s : State), n.toNat = 0 ∨ s.idx.toNat + n.toNat - 1 ≤ 0xFFF →
    ∃ t, exec (.drw x y n) s = .next t ∧
      ((∃ cx cy, s.pix.lit cx cy = true ∧ s.sprite x y n cx cy) → t.getReg 0xF = 1) ∧
      ((¬ ∃ cx cy, s.pix.lit cx cy = true ∧ s.sprite x y n cx cy) → t.getReg 0xF = 0)

/-- Drawing the same sprite at the same place twice restores every pixel, and the second flag says whether some 1 bit
lands on a pixel that was off before the first (43 section 2, marked derived). -/
def Obligations.DrawingTwiceRestores : Prop :=
  ∀ (x y n : Nibble) (s : State), n.toNat = 0 ∨ s.idx.toNat + n.toNat - 1 ≤ 0xFFF →
    ∃ t u, exec (.drw x y n) s = .next t ∧ exec (.drw x y n) { t with v := s.v } = .next u ∧
      u.pix = s.pix ∧
      ((∃ cx cy, s.pix.lit cx cy = false ∧ s.sprite x y n cx cy) ↔ u.getReg 0xF = 1)

/-- The pixel grid is reached only by CLS and DRW: any other instruction does the same whatever the grid holds and leaves
it as it is. Coordinates never fault and count modulo 64 and 32: whatever the registers hold, DRW halts or not alike, it
does not halt while its sprite lies in memory, and start coordinates equal modulo 64 and modulo 32 give the same pixels
(20 section 7). That no rows never halt is the spec's decision D14 (log entry 16), the bound is D8 (log entry 15). That
every single pixel wraps is DrawTogglesSpritePixels. -/
def Obligations.DisplayReachedOnlyByClearAndDraw : Prop :=
  (∀ (i : Instr) (s : State) (g : Grid), i.usesDisplay = false →
    exec i { s with pix := g } = mapNext (fun t => { t with pix := g }) (exec i s)) ∧
  ∀ (x y n : Nibble) (s s' : State), s' = { s with v := s'.v } →
    ∃ t t', exec (.drw x y n) s = .next t ∧ exec (.drw x y n) s' = .next t' ∧
      t'.executor = t.executor ∧ t'.haltCause = t.haltCause ∧ t'.haltAddr = t.haltAddr ∧
      (n.toNat = 0 ∨ s.idx.toNat + n.toNat - 1 ≤ 0xFFF → t.executor = s.executor) ∧
      ((s'.getReg x).toNat % 64 = (s.getReg x).toNat % 64 → (s'.getReg y).toNat % 32 = (s.getReg y).toNat % 32 →
        t'.pix = t.pix)

/-! ### Keypad and timers (44_input_timers.md, 60 sections 3 and 4) -/

/-- SKP and SKNP: a key is pressed and its number equals V[x] on all eight bits, or not (44 section 1; the full-byte
test is the spec's decision D17, the wrap D2, log entries 11 and 18). -/
def Obligations.KeySkips : Prop :=
  ∀ (x : Nibble) (s : State),
    (∃ t, exec (.skp x) s = .next t ∧ OnlyPc s t ∧
      t.pc.toNat = if s.keyValid = true ∧ s.key.toNat = (s.getReg x).toNat then (s.pc.toNat + 2) % 4096
        else s.pc.toNat) ∧
    ∃ t, exec (.sknp x) s = .next t ∧ OnlyPc s t ∧
      t.pc.toNat = if s.keyValid = true ∧ s.key.toNat = (s.getReg x).toNat then s.pc.toNat
        else (s.pc.toNat + 2) % 4096

/-- LD Vx, K parks the executor and remembers x, even when a key is held, and changes nothing else (44 section 2; D16,
log entry 17). -/
def Obligations.KeyWaitParks : Prop :=
  ∀ (x : Nibble) (s : State), ∃ t, exec (.ldVxK x) s = .next t ∧
    t = { s with waitX := x, executor := .waitingForKey } ∧ KeepsMemory s t

/-- R181: press(k) makes k the pressed key and release empties the slot, in every executor state; outside a key wait
nothing else changes, and a press in a key wait also ends it. -/
def Obligations.KeyEventsUpdateTheSlot : Prop :=
  ∀ (s : State) (k : Nibble) (rest : List Event),
    (s.agenda = .press k :: rest →
      ∃ t, step s = .next t ∧ t.keyValid = true ∧ t.key = k ∧
        (s.executor ≠ .waitingForKey → t = { s with keyValid := true, key := k, agenda := rest }) ∧
        (s.executor = .waitingForKey → t.executor = .running)) ∧
    (s.agenda = .release :: rest →
      ∃ t, step s = .next t ∧ t.keyValid = false ∧ t = { s with keyValid := false, agenda := rest })

/-- A press in a key wait writes the key's number, zero-extended, to the remembered register and resumes; pc and all
else stay (60 section 4; D16, D28, log entry 17). -/
def Obligations.PressEndsKeyWait : Prop :=
  ∀ (s : State) (k : Nibble) (rest : List Event), s.agenda = .press k :: rest → s.executor = .waitingForKey →
    ∃ t, step s = .next t ∧ (t.getReg s.waitX).toNat = k.toNat ∧ (∀ j, j ≠ s.waitX → t.getReg j = s.getReg j) ∧
      t = { s with v := t.v, executor := .running, keyValid := true, key := k, agenda := rest } ∧ KeepsMemory s t

/-- LD Vx, K, then any number of execution ticks, then press(k): V[x] = k, the executor runs, and pc is where the wait
left it, so the next instruction is neither skipped nor repeated (95 S8; D16, log entry 17). -/
def Obligations.KeyWaitThenPressResumes : Prop :=
  ∀ (x k : Nibble) (s : State) (ticks : Nat) (rest : List Event), ∃ t u, exec (.ldVxK x) s = .next t ∧
    Host.Core.run Sys2Proof.core (ticks + 1)
      ({ t with agenda := List.replicate ticks .execTick ++ .press k :: rest } : State) = .next u ∧
    (u.getReg x).toNat = k.toNat ∧ u.executor = .running ∧ u.pc = s.pc ∧ u.agenda = rest ∧
    ∀ j, j ≠ x → u.getReg j = s.getReg j

/-- R153, R155, R156: the timer instructions; `tone_active` follows ST at once. -/
def Obligations.TimerInstructions : Prop :=
  ∀ (x : Nibble) (s : State),
    (∃ t, exec (.ldVxDt x) s = .next t ∧ t.getReg x = s.dt ∧ OnlyRegisters (· = x) s t) ∧
    (∃ t, exec (.ldDtVx x) s = .next t ∧ t.dt = s.getReg x ∧ t = { s with dt := t.dt } ∧ KeepsMemory s t) ∧
    ∃ t, exec (.ldStVx x) s = .next t ∧ t.st = s.getReg x ∧
      (t.toneActive = true ↔ 0 < (s.getReg x).toNat) ∧ t = { s with st := t.st } ∧ KeepsMemory s t

/-- A timer tick counts both timers down by one, each clamped at 0, in every executor state, and changes nothing else
(60 section 3; that it also acts in Halted is the spec's decision D18, log entry 21). -/
def Obligations.TimerTickCountsDown : Prop :=
  ∀ (s : State) (rest : List Event), s.agenda = .timerTick :: rest → ∃ t, step s = .next t ∧
    t.dt.toNat = s.dt.toNat - 1 ∧ t.st.toNat = s.st.toNat - 1 ∧
    t = { s with dt := t.dt, st := t.st, agenda := rest } ∧ KeepsMemory s t

/-- R179: `tone_active` is 1 exactly while ST > 0, and a step changes it only as a timer tick or as LD ST, Vx. -/
def Obligations.ToneFollowsSoundTimer : Prop :=
  (∀ s : State, s.toneActive = true ↔ 0 < s.st.toNat) ∧
  ∀ s t : State, step s = .next t → t.toneActive ≠ s.toneActive →
    s.upcoming = .timerTick ∨ s.cycles ∧ ∃ x, decodeWord s.fetchWord = .instr (.ldStVx x)

/-- What no instruction touches: the key slot and the agenda never; DT but by LD DT, ST but by LD ST, wait_x and
WaitingForKey but by LD Vx, K, the draws but by RND; the halt latches and Halted but by a fault (20 section 7, the
table of agents; D9). -/
def Obligations.ControlStateFrame : Prop :=
  ∀ (i : Instr) (s t : State), exec i s = .next t →
    t.keyValid = s.keyValid ∧ t.key = s.key ∧ t.agenda = s.agenda ∧
    ((∀ x, i ≠ .ldDtVx x) → t.dt = s.dt) ∧ ((∀ x, i ≠ .ldStVx x) → t.st = s.st) ∧
    ((∀ x, i ≠ .ldVxK x) → t.waitX = s.waitX) ∧ ((∀ x kk, i ≠ .rnd x kk) → t.draws = s.draws) ∧
    (i.faultIn s 0 = none → t.haltCause = s.haltCause ∧ t.haltWord = s.haltWord ∧ t.haltAddr = s.haltAddr ∧
      ((∀ x, i ≠ .ldVxK x) → t.executor = s.executor))
end

