-- ==== Sys2Proof/Laws/Decode.lean ====
section
/-!
SUPPORT. The fields of a word as numbers, and the fields of a word put together from fields (spec 30_encoding.md R61,
R62).
-/

namespace Sys2Proof

/-- No two rows of the opcode map select the same word: they differ in a bit that both fix (R65 to R69). -/
theorem opcodeMap_disjoint :
    opcodeMap.Pairwise (fun a b => (a.pattern ^^^ b.pattern) &&& a.mask &&& b.mask ≠ 0) := by decide

/-- An unmatched word is handed back as it is (R70). -/
theorem decodeWord_unmatched {w w' : InsnWord} (h : decodeWord w = .unmatched w') : w' = w := by
  unfold decodeWord decodeFamily0 decodeFamily8 decodeFamilyE decodeFamilyF at h
  split at h <;> (try split at h) <;> (try split at h) <;> simp_all

/-! ### Fields as numbers -/

theorem fieldOp_toNat (w : InsnWord) : (fieldOp w).toNat = w.toNat / 4096 % 16 := by
  simp [fieldOp, BitVec.extractLsb'_toNat, Nat.shiftRight_eq_div_pow]

theorem fieldX_toNat (w : InsnWord) : (fieldX w).toNat = w.toNat / 256 % 16 := by
  simp [fieldX, BitVec.extractLsb'_toNat, Nat.shiftRight_eq_div_pow]

theorem fieldY_toNat (w : InsnWord) : (fieldY w).toNat = w.toNat / 16 % 16 := by
  simp [fieldY, BitVec.extractLsb'_toNat, Nat.shiftRight_eq_div_pow]

theorem fieldN_toNat (w : InsnWord) : (fieldN w).toNat = w.toNat % 16 := by
  simp [fieldN, BitVec.extractLsb'_toNat]

theorem fieldKk_toNat (w : InsnWord) : (fieldKk w).toNat = w.toNat % 256 := by
  simp [fieldKk, BitVec.extractLsb'_toNat]

theorem fieldNnn_toNat (w : InsnWord) : (fieldNnn w).toNat = w.toNat % 4096 := by
  simp [fieldNnn, BitVec.extractLsb'_toNat]

/-! ### Words put together from fields -/

theorem append_toNat {m n : Nat} (a : BitVec m) (b : BitVec n) : (a ++ b).toNat = a.toNat * 2 ^ n + b.toNat := by
  rw [BitVec.toNat_append, ← Nat.shiftLeft_add_eq_or_of_lt b.isLt, Nat.shiftLeft_eq]

theorem formatA_toNat (o : Nibble) (a : Addr) : BitVec.toNat (w := 16) (o ++ a) = o.toNat * 4096 + a.toNat :=
  append_toNat o a

theorem formatI_toNat (o x : Nibble) (k : Byte) :
    BitVec.toNat (w := 16) (o ++ x ++ k) = (o.toNat * 16 + x.toNat) * 256 + k.toNat :=
  (append_toNat (o ++ x) k).trans (by rw [append_toNat]; rfl)

theorem formatR_toNat (o x y n : Nibble) :
    BitVec.toNat (w := 16) (o ++ x ++ y ++ n) = ((o.toNat * 16 + x.toNat) * 16 + y.toNat) * 16 + n.toNat :=
  (append_toNat (o ++ x ++ y) n).trans (by rw [append_toNat, append_toNat]; rfl)

/-! ### Format A -/

@[simp] theorem fieldOp_formatA (o : Nibble) (a : Addr) : fieldOp (o ++ a) = o := by
  apply BitVec.eq_of_toNat_eq
  rw [fieldOp_toNat, formatA_toNat]
  omega

@[simp] theorem fieldNnn_formatA (o : Nibble) (a : Addr) : fieldNnn (o ++ a) = a := by
  apply BitVec.eq_of_toNat_eq
  rw [fieldNnn_toNat, formatA_toNat]
  omega

/-! ### Formats I and X -/

@[simp] theorem fieldOp_formatI (o x : Nibble) (k : Byte) : fieldOp (o ++ x ++ k) = o := by
  apply BitVec.eq_of_toNat_eq
  rw [fieldOp_toNat, formatI_toNat]
  omega

@[simp] theorem fieldX_formatI (o x : Nibble) (k : Byte) : fieldX (o ++ x ++ k) = x := by
  apply BitVec.eq_of_toNat_eq
  rw [fieldX_toNat, formatI_toNat]
  omega

@[simp] theorem fieldKk_formatI (o x : Nibble) (k : Byte) : fieldKk (o ++ x ++ k) = k := by
  apply BitVec.eq_of_toNat_eq
  rw [fieldKk_toNat, formatI_toNat]
  omega

/-! ### Formats R and D -/

@[simp] theorem fieldOp_formatR (o x y n : Nibble) : fieldOp (o ++ x ++ y ++ n) = o := by
  apply BitVec.eq_of_toNat_eq
  rw [fieldOp_toNat, formatR_toNat]
  omega

@[simp] theorem fieldX_formatR (o x y n : Nibble) : fieldX (o ++ x ++ y ++ n) = x := by
  apply BitVec.eq_of_toNat_eq
  rw [fieldX_toNat, formatR_toNat]
  omega

@[simp] theorem fieldY_formatR (o x y n : Nibble) : fieldY (o ++ x ++ y ++ n) = y := by
  apply BitVec.eq_of_toNat_eq
  rw [fieldY_toNat, formatR_toNat]
  omega

@[simp] theorem fieldN_formatR (o x y n : Nibble) : fieldN (o ++ x ++ y ++ n) = n := by
  apply BitVec.eq_of_toNat_eq
  rw [fieldN_toNat, formatR_toNat]
  omega

/-! ### A word is its fields -/

theorem word_eq_formatA (w : InsnWord) : w = fieldOp w ++ fieldNnn w := by
  apply BitVec.eq_of_toNat_eq
  rw [formatA_toNat, fieldOp_toNat, fieldNnn_toNat]
  omega

theorem word_eq_formatI (w : InsnWord) : w = fieldOp w ++ fieldX w ++ fieldKk w := by
  apply BitVec.eq_of_toNat_eq
  rw [formatI_toNat, fieldOp_toNat, fieldX_toNat, fieldKk_toNat]
  omega

theorem word_eq_formatR (w : InsnWord) : w = fieldOp w ++ fieldX w ++ fieldY w ++ fieldN w := by
  apply BitVec.eq_of_toNat_eq
  rw [formatR_toNat, fieldOp_toNat, fieldX_toNat, fieldY_toNat, fieldN_toNat]
  omega

end Sys2Proof
end

