-- ==== Sys2Proof/Laws/Grid.lean ====
section
/-!
SUPPORT. What one sprite bit and one sprite row do to the display (spec 43_display.md R142).
-/

namespace Sys2Proof.Machine

@[simp] theorem Grid.blank_lit (cx : Fin 64) (cy : Fin 32) : Grid.blank.lit cx cy = false := by
  simp [Grid.lit, Grid.blank]

/-- Two grids with the same pixels are equal. -/
theorem Grid.ext_lit {g h : Grid} (e : ∀ cx cy, g.lit cx cy = h.lit cx cy) : g = h := by
  apply Vector.ext
  intro j hj
  apply BitVec.eq_of_getLsbD_eq
  intro c hc
  exact e ⟨c, hc⟩ ⟨j, hj⟩

/-- One sprite bit toggles the pixel it lands on and no other (R142). -/
theorem blitBit_row (x0 : Nat) (byte : Byte) (a : RowBlit) (b c : Nat) (hc : c < 64) :
    (blitBit x0 byte a b).row.getLsbD c =
      (a.row.getLsbD c ^^ (byte.getLsbD (7 - b) && decide (c = (x0 + b) % 64))) := by
  simp only [blitBit, Config.width, BitVec.getLsbD_xor, BitVec.getLsbD_shiftLeft, BitVec.getLsbD_setWidth,
    BitVec.getLsbD_ofBool]
  have hlt : (x0 + b) % 64 < 64 := Nat.mod_lt _ (by decide)
  congr 1
  by_cases h : c = (x0 + b) % 64
  · subst h
    simp [hlt]
  · by_cases h2 : c < (x0 + b) % 64
    · simp [h, h2]
    · have h3 : c - (x0 + b) % 64 ≠ 0 := by omega
      simp [h, h3]

/-- One sprite bit records a collision exactly when it lands on a lit pixel (R142). -/
theorem blitBit_coll (x0 : Nat) (byte : Byte) (a : RowBlit) (b : Nat) :
    (blitBit x0 byte a b).coll = (a.coll || (byte.getLsbD (7 - b) && a.row.getLsbD ((x0 + b) % 64))) := rfl

/-- One sprite row changes one row of the screen (R142). -/
theorem blitRow_lit (x0 y0 r : Nat) (byte : Byte) (a : BlitState) (cx : Fin 64) (cy : Fin 32) :
    (blitRow x0 y0 r byte a).pix.lit cx cy =
      if cy.val = (y0 + r) % 32 then (blitByte x0 byte ⟨a.pix[cy], a.coll⟩).row.getLsbD cx
      else a.pix.lit cx cy := by
  by_cases h : cy.val = (y0 + r) % 32
  · have hc : cy = Fin.ofNat 32 (y0 + r) := Fin.ext h
    subst hc
    simp [blitRow, Grid.lit]
  · have hn : ¬ (y0 + r) % 32 = cy.val := fun e => h e.symm
    simp [blitRow, Grid.lit, h, hn]

theorem blitRow_coll (x0 y0 r : Nat) (byte : Byte) (a : BlitState) :
    (blitRow x0 y0 r byte a).coll =
      (blitByte x0 byte ⟨a.pix[(Fin.ofNat 32 (y0 + r))], a.coll⟩).coll := rfl

/-! ### Whole rows and whole sprites -/

theorem xor_true_iff (p q : Bool) : (p ^^ q) = true ↔ ¬ (p = true ↔ q = true) := by cases p <;> cases q <;> simp

/-- The first `k` bits of a sprite row toggle exactly the columns their 1 bits land on, and record a collision exactly
when one of those columns was lit (R142): eight columns never coincide modulo 64. -/
theorem blitBits_cases (x0 : Nat) (byte : Byte) (a : RowBlit) (k : Nat) (hk : k ≤ 8) :
    (∀ c, c < 64 → (((List.range k).foldl (blitBit x0 byte) a).row.getLsbD c = true ↔
      ¬ (a.row.getLsbD c = true ↔ ∃ b, b < k ∧ (x0 + b) % 64 = c ∧ byte.getLsbD (7 - b) = true))) ∧
    (((List.range k).foldl (blitBit x0 byte) a).coll = true ↔
      a.coll = true ∨ ∃ b, b < k ∧ byte.getLsbD (7 - b) = true ∧ a.row.getLsbD ((x0 + b) % 64) = true) := by
  induction k with
  | zero => simp
  | succ k ih =>
    obtain ⟨ihr, ihc⟩ := ih (by omega)
    have hlt : (x0 + k) % 64 < 64 := Nat.mod_lt _ (by decide)
    have hmiss : ¬ ∃ b, b < k ∧ (x0 + b) % 64 = (x0 + k) % 64 ∧ byte.getLsbD (7 - b) = true := by
      rintro ⟨b, hb, he, _⟩
      omega
    rw [List.range_succ, List.foldl_append, List.foldl_cons, List.foldl_nil]
    refine ⟨fun c hc => ?_, ?_⟩
    · have split : (∃ b, b < k + 1 ∧ (x0 + b) % 64 = c ∧ byte.getLsbD (7 - b) = true) ↔
          (∃ b, b < k ∧ (x0 + b) % 64 = c ∧ byte.getLsbD (7 - b) = true) ∨
            ((x0 + k) % 64 = c ∧ byte.getLsbD (7 - k) = true) := by
        constructor
        · rintro ⟨b, hb, h⟩
          rcases Nat.lt_succ_iff_lt_or_eq.mp hb with hb | rfl
          · exact .inl ⟨b, hb, h⟩
          · exact .inr h
        · rintro (⟨b, hb, h⟩ | h)
          · exact ⟨b, by omega, h⟩
          · exact ⟨k, by omega, h⟩
      rw [blitBit_row x0 byte _ k c hc, split, xor_true_iff, Bool.and_eq_true, decide_eq_true_iff, ihr c hc]
      by_cases hck : (x0 + k) % 64 = c
      · subst hck
        simp only [hmiss, false_or, true_and, and_true, iff_false, not_not]
      · have hkc : ¬ c = (x0 + k) % 64 := fun e => hck e.symm
        simp only [hck, hkc, false_and, and_false, or_false, iff_false, not_not]
    · have split : (∃ b, b < k + 1 ∧ byte.getLsbD (7 - b) = true ∧ a.row.getLsbD ((x0 + b) % 64) = true) ↔
          (∃ b, b < k ∧ byte.getLsbD (7 - b) = true ∧ a.row.getLsbD ((x0 + b) % 64) = true) ∨
            (byte.getLsbD (7 - k) = true ∧ a.row.getLsbD ((x0 + k) % 64) = true) := by
        constructor
        · rintro ⟨b, hb, h⟩
          rcases Nat.lt_succ_iff_lt_or_eq.mp hb with hb | rfl
          · exact .inl ⟨b, hb, h⟩
          · exact .inr h
        · rintro (⟨b, hb, h⟩ | h)
          · exact ⟨b, by omega, h⟩
          · exact ⟨k, by omega, h⟩
      rw [blitBit_coll, Bool.or_eq_true, Bool.and_eq_true, ihc, ihr _ hlt, split, or_assoc]
      simp only [hmiss, iff_false, not_not]

/-- One sprite row, as `blitBits_cases` says it of all eight bits (R142). -/
theorem blitByte_cases (x0 : Nat) (byte : Byte) (a : RowBlit) :
    (∀ c, c < 64 → ((blitByte x0 byte a).row.getLsbD c = true ↔
      ¬ (a.row.getLsbD c = true ↔ ∃ b, b < 8 ∧ (x0 + b) % 64 = c ∧ byte.getLsbD (7 - b) = true))) ∧
    ((blitByte x0 byte a).coll = true ↔
      a.coll = true ∨ ∃ b, b < 8 ∧ byte.getLsbD (7 - b) = true ∧ a.row.getLsbD ((x0 + b) % 64) = true) :=
  blitBits_cases x0 byte a 8 (by decide)

/-- The rows of a sprite from row `r` on toggle exactly the pixels their 1 bits land on, and record a collision exactly
when one of those pixels was lit (R142): at most 32 rows never coincide modulo 32. -/
theorem blitRows_cases (x0 y0 r : Nat) (rows : List Byte) (a : BlitState) (h : r + rows.length ≤ 32) :
    (∀ cx cy, (blitRows x0 y0 r rows a).pix.lit cx cy = true ↔
      ¬ (a.pix.lit cx cy = true ↔ ∃ j b, j < rows.length ∧ b < 8 ∧ (x0 + b) % 64 = cx.val ∧
        (y0 + (r + j)) % 32 = cy.val ∧ (rows.getD j 0).getLsbD (7 - b) = true)) ∧
    ((blitRows x0 y0 r rows a).coll = true ↔
      a.coll = true ∨ ∃ cx cy, a.pix.lit cx cy = true ∧ ∃ j b, j < rows.length ∧ b < 8 ∧ (x0 + b) % 64 = cx.val ∧
        (y0 + (r + j)) % 32 = cy.val ∧ (rows.getD j 0).getLsbD (7 - b) = true) := by
  induction rows generalizing r a with
  | nil => simp [blitRows]
  | cons byte rows ih =>
    rw [List.length_cons] at h
    obtain ⟨ihr, ihc⟩ := ih (r + 1) (blitRow x0 y0 r byte a) (by omega)
    have split (cx : Fin 64) (cy : Fin 32) :
        (∃ j b, j < (byte :: rows).length ∧ b < 8 ∧ (x0 + b) % 64 = cx.val ∧ (y0 + (r + j)) % 32 = cy.val ∧
          ((byte :: rows).getD j 0).getLsbD (7 - b) = true) ↔
        (cy.val = (y0 + r) % 32 ∧ ∃ b, b < 8 ∧ (x0 + b) % 64 = cx.val ∧ byte.getLsbD (7 - b) = true) ∨
        (∃ j b, j < rows.length ∧ b < 8 ∧ (x0 + b) % 64 = cx.val ∧ (y0 + (r + 1 + j)) % 32 = cy.val ∧
          (rows.getD j 0).getLsbD (7 - b) = true) := by
      constructor
      · rintro ⟨j, b, hj, hb, hx, hy, hbit⟩
        cases j with
        | zero => exact .inl ⟨hy.symm, b, hb, hx, hbit⟩
        | succ j =>
          have e : r + 1 + j = r + (j + 1) := by omega
          exact .inr ⟨j, b, by simpa using hj, hb, hx, by rw [e]; exact hy, hbit⟩
      · rintro (⟨hy, b, hb, hx, hbit⟩ | ⟨j, b, hj, hb, hx, hy, hbit⟩)
        · exact ⟨0, b, by simp, hb, hx, hy.symm, hbit⟩
        · have e : r + 1 + j = r + (j + 1) := by omega
          exact ⟨j + 1, b, by simpa using hj, hb, hx, by rw [← e]; exact hy, hbit⟩
    have miss (cx : Fin 64) (cy : Fin 32) (hy : cy.val = (y0 + r) % 32) :
        ¬ ∃ j b, j < rows.length ∧ b < 8 ∧ (x0 + b) % 64 = cx.val ∧ (y0 + (r + 1 + j)) % 32 = cy.val ∧
          (rows.getD j 0).getLsbD (7 - b) = true := by
      rintro ⟨j, b, hj, _, _, hy', _⟩
      omega
    have row := blitByte_cases x0 byte ⟨a.pix[(Fin.ofNat 32 (y0 + r))], a.coll⟩
    refine ⟨fun cx cy => ?_, ?_⟩
    · rw [blitRows, ihr, blitRow_lit, split]
      by_cases hy : cy.val = (y0 + r) % 32
      · have hc : cy = Fin.ofNat 32 (y0 + r) := Fin.ext hy
        subst hc
        rw [if_pos hy, row.1 cx.val cx.isLt]
        have hm := miss cx _ hy
        have hl : a.pix.lit cx (Fin.ofNat 32 (y0 + r)) = a.pix[(Fin.ofNat 32 (y0 + r))].getLsbD cx := rfl
        rw [hl, or_iff_left hm, and_iff_right hy, iff_false_right hm, not_not]
      · rw [if_neg hy]
        simp only [hy, false_and, false_or]
    · rw [blitRows, ihc, blitRow_coll, row.2, or_assoc]
      refine or_congr_right ⟨?_, ?_⟩
      · rintro (⟨b, hb, hbit, hl⟩ | ⟨cx, cy, hl, hc⟩)
        · refine ⟨⟨(x0 + b) % 64, Nat.mod_lt _ (by decide)⟩, Fin.ofNat 32 (y0 + r), hl, ?_⟩
          exact (split _ _).mpr (.inl ⟨rfl, b, hb, rfl, hbit⟩)
        · rw [blitRow_lit] at hl
          by_cases hy : cy.val = (y0 + r) % 32
          · exact absurd hc (miss cx cy hy)
          · rw [if_neg hy] at hl
            exact ⟨cx, cy, hl, (split _ _).mpr (.inr hc)⟩
      · rintro ⟨cx, cy, hl, hc⟩
        rcases (split _ _).mp hc with ⟨hy, b, hb, hx, hbit⟩ | hc
        · have hcy : cy = Fin.ofNat 32 (y0 + r) := Fin.ext hy
          subst hcy
          exact .inl ⟨b, hb, hbit, by rw [hx]; exact hl⟩
        · refine .inr ⟨cx, cy, ?_, hc⟩
          rw [blitRow_lit]
          by_cases hy : cy.val = (y0 + r) % 32
          · exact absurd hc (miss cx cy hy)
          · rw [if_neg hy]
            exact hl

end Sys2Proof.Machine
end

