-- ==== Sys2Proof/Laws/Memory.lean ====
section
/-!
SUPPORT. The memory's laws (spec 20_memory.md R42, R46): reading back what was written, leaving every other address
alone, and keeping the canonical form.
-/

namespace Sys2Proof.Machine

theorem Memory.read_below {m : Memory} {lo a : Nat} (h : Memory.wfFrom lo m = true) (ha : a < lo) :
    Memory.read m a = Memory.initialByte a := by
  induction m generalizing lo with
  | nil => rfl
  | cons c cs ih =>
    simp only [Memory.wfFrom, Bool.and_eq_true, decide_eq_true_eq] at h
    have hc : c.1 ≠ a := by omega
    simp only [Memory.read, hc, if_false]
    exact ih h.2 (by omega)

theorem Memory.wfFrom_mono {m : Memory} {lo lo' : Nat} (h : Memory.wfFrom lo m = true) (hl : lo' ≤ lo) :
    Memory.wfFrom lo' m = true := by
  cases m with
  | nil => rfl
  | cons c cs =>
    simp only [Memory.wfFrom, Bool.and_eq_true, decide_eq_true_eq] at h ⊢
    exact ⟨⟨⟨by omega, h.1.1.2⟩, h.1.2⟩, h.2⟩

theorem Memory.read_put_same {m : Memory} {lo : Nat} (h : Memory.wfFrom lo m = true) (a : Nat) (b : Byte) :
    Memory.read (Memory.put m a b) a = b := by
  induction m generalizing lo with
  | nil =>
    by_cases hb : b = Memory.initialByte a
    · simp [Memory.put, Memory.read, hb]
    · simp [Memory.put, Memory.read, hb]
  | cons c cs ih =>
    simp only [Memory.wfFrom, Bool.and_eq_true, decide_eq_true_eq] at h
    have below : a ≤ c.1 → Memory.read cs a = Memory.initialByte a := fun hle => Memory.read_below h.2 (by omega)
    unfold Memory.put
    by_cases h1 : a < c.1
    · have hc : c.1 ≠ a := by omega
      by_cases hb : b = Memory.initialByte a
      · simp [h1, hb, Memory.read, hc, below (by omega)]
      · simp [h1, hb, Memory.read]
    · by_cases h2 : a = c.1
      · by_cases hb : b = Memory.initialByte a
        · simp [h1, hb]
          simp [h2, Memory.read_below h.2 (Nat.lt_succ_self c.1)]
        · simp [h2, h2 ▸ hb, Memory.read]
      · have hc : c.1 ≠ a := Ne.symm h2
        simp [h1, h2, Memory.read, hc, ih h.2]

theorem Memory.read_put_other (m : Memory) {a a' : Nat} (b : Byte) (h : a' ≠ a) :
    Memory.read (Memory.put m a b) a' = Memory.read m a' := by
  have h' : a ≠ a' := Ne.symm h
  induction m with
  | nil => by_cases hb : b = Memory.initialByte a <;> simp [Memory.put, Memory.read, hb, h']
  | cons c cs ih =>
    unfold Memory.put
    by_cases h1 : a < c.1
    · by_cases hb : b = Memory.initialByte a <;> simp [h1, hb, Memory.read, h']
    · by_cases h2 : a = c.1
      · have hc : c.1 ≠ a' := h2 ▸ h'
        by_cases hb : b = Memory.initialByte a
        · simp [hb, Memory.read, ← h2, h']
        · simp [h2, h2 ▸ hb, Memory.read, hc]
      · simp [h1, h2, Memory.read, ih]

theorem Memory.put_wf {m : Memory} {lo a : Nat} (b : Byte) (h : Memory.wfFrom lo m = true) (hlo : lo ≤ a)
    (ha : a < Config.memSize) : Memory.wfFrom lo (Memory.put m a b) = true := by
  induction m generalizing lo with
  | nil =>
    by_cases hb : b = Memory.initialByte a
    · simp [Memory.put, hb, Memory.wfFrom]
    · simp [Memory.put, hb, Memory.wfFrom, hlo, ha]
  | cons c cs ih =>
    have hw := h
    simp only [Memory.wfFrom, Bool.and_eq_true, decide_eq_true_eq] at h
    unfold Memory.put
    by_cases h1 : a < c.1
    · by_cases hb : b = Memory.initialByte a
      · simpa [h1, hb] using hw
      · simp only [h1, hb, if_true, if_false, Memory.wfFrom, Bool.and_eq_true, decide_eq_true_eq]
        exact ⟨⟨⟨hlo, ha⟩, by simpa using hb⟩, ⟨⟨by omega, h.1.1.2⟩, h.1.2⟩, h.2⟩
    · by_cases h2 : a = c.1
      · simp only [h1, if_false]
        rw [if_pos h2]
        by_cases hb : b = Memory.initialByte a
        · rw [if_pos hb]
          exact Memory.wfFrom_mono h.2 (by omega)
        · rw [if_neg hb]
          simp only [Memory.wfFrom, Bool.and_eq_true, decide_eq_true_eq]
          exact ⟨⟨⟨hlo, ha⟩, by simpa using hb⟩, h2 ▸ h.2⟩
      · simp only [h1, h2, if_false, Memory.wfFrom, Bool.and_eq_true, decide_eq_true_eq]
        exact ⟨h.1, ih h.2 (by omega)⟩

/-- A write keeps the canonical form. -/
theorem Memory.write_wf {m : Memory} (a : Nat) (b : Byte) (h : m.wf = true) : (m.write a b).wf = true := by
  unfold Memory.write
  split
  · exact Memory.put_wf b h (Nat.zero_le a) (by assumption)
  · exact h

theorem Memory.read_write_same {m : Memory} {a : Nat} (b : Byte) (h : m.wf = true) (ha : a < Config.memSize) :
    (m.write a b).read a = b := by
  simp only [Memory.write, ha, if_true]
  exact Memory.read_put_same h a b

theorem Memory.read_write_other (m : Memory) {a a' : Nat} (b : Byte) (h : a' ≠ a) :
    (m.write a b).read a' = m.read a' := by
  unfold Memory.write
  split
  · exact Memory.read_put_other m b h
  · rfl

/-- Writing bytes keeps the canonical form. -/
theorem Memory.writeBytes_wf {m : Memory} (a : Nat) (bs : List Byte) (h : m.wf = true) :
    (m.writeBytes a bs).wf = true := by
  induction bs generalizing m a with
  | nil => exact h
  | cons b bs ih => exact ih (a + 1) (Memory.write_wf a b h)

/-- Every address outside the written range reads as before. -/
theorem Memory.read_writeBytes_outside (m : Memory) {a a' : Nat} (bs : List Byte)
    (h : a' < a ∨ a + bs.length ≤ a') : (m.writeBytes a bs).read a' = m.read a' := by
  induction bs generalizing m a with
  | nil => rfl
  | cons b bs ih =>
    simp only [List.length_cons] at h
    show ((m.write a b).writeBytes (a + 1) bs).read a' = m.read a'
    rw [ih (m.write a b) (by omega), Memory.read_write_other m b (by omega)]

/-- Every address inside the written range reads as the byte written there. -/
theorem Memory.read_writeBytes_inside {m : Memory} {a k : Nat} (bs : List Byte) (hm : m.wf = true)
    (hb : a + bs.length ≤ Config.memSize) (hk : k < bs.length) : (m.writeBytes a bs).read (a + k) = bs[k] := by
  induction bs generalizing m a k with
  | nil => simp at hk
  | cons b bs ih =>
    simp only [List.length_cons] at hb hk
    show ((m.write a b).writeBytes (a + 1) bs).read (a + k) = (b :: bs)[k]
    cases k with
    | zero =>
      rw [Memory.read_writeBytes_outside (m.write a b) bs (Or.inl (by omega))]
      exact Memory.read_write_same b hm (by omega)
    | succ k =>
      have hak : a + (k + 1) = (a + 1) + k := by omega
      rw [hak, ih (Memory.write_wf a b hm) (by omega) (by omega)]
      rfl

@[simp] theorem Memory.readBytes_length (m : Memory) (a n : Nat) : (m.readBytes a n).length = n := by
  induction n generalizing a with
  | zero => rfl
  | succ n ih => simp [Memory.readBytes, ih]

@[simp] theorem Memory.readBytes_getElem (m : Memory) (a n k : Nat) (hk : k < (m.readBytes a n).length) :
    (m.readBytes a n)[k] = m.read (a + k) := by
  induction n generalizing a k with
  | zero => simp [Memory.readBytes] at hk
  | succ n ih =>
    cases k with
    | zero => rfl
    | succ k =>
      simp only [Memory.readBytes, List.getElem_cons_succ]
      rw [ih]
      congr 1
      omega

/-- Reading back the range just written gives the bytes written. -/
theorem Memory.readBytes_writeBytes {m : Memory} {a : Nat} (bs : List Byte) (hm : m.wf = true)
    (hb : a + bs.length ≤ Config.memSize) : (m.writeBytes a bs).readBytes a bs.length = bs := by
  apply List.ext_getElem
  · simp
  · intro k h1 h2
    rw [Memory.readBytes_getElem, Memory.read_writeBytes_inside bs hm hb h2]

end Sys2Proof.Machine
end

