-- ==== Sys2Proof/Laws/State.lean ====
section
/-!
SUPPORT. What each named update of the state does to each field: one lemma per field per update.
-/

namespace Sys2Proof.Machine

variable (s : State)

@[simp] theorem State.setReg_v (x : Nibble) (b : Byte) : (s.setReg x b).v = s.v.set x.toNat b x.isLt := rfl
@[simp] theorem State.setReg_pc (x : Nibble) (b : Byte) : (s.setReg x b).pc = s.pc := rfl
@[simp] theorem State.setReg_idx (x : Nibble) (b : Byte) : (s.setReg x b).idx = s.idx := rfl
@[simp] theorem State.setReg_dt (x : Nibble) (b : Byte) : (s.setReg x b).dt = s.dt := rfl
@[simp] theorem State.setReg_st (x : Nibble) (b : Byte) : (s.setReg x b).st = s.st := rfl
@[simp] theorem State.setReg_stack (x : Nibble) (b : Byte) : (s.setReg x b).stack = s.stack := rfl
@[simp] theorem State.setReg_sp (x : Nibble) (b : Byte) : (s.setReg x b).sp = s.sp := rfl
@[simp] theorem State.setReg_executor (x : Nibble) (b : Byte) : (s.setReg x b).executor = s.executor := rfl
@[simp] theorem State.setReg_waitX (x : Nibble) (b : Byte) : (s.setReg x b).waitX = s.waitX := rfl
@[simp] theorem State.setReg_haltCause (x : Nibble) (b : Byte) : (s.setReg x b).haltCause = s.haltCause := rfl
@[simp] theorem State.setReg_haltWord (x : Nibble) (b : Byte) : (s.setReg x b).haltWord = s.haltWord := rfl
@[simp] theorem State.setReg_haltAddr (x : Nibble) (b : Byte) : (s.setReg x b).haltAddr = s.haltAddr := rfl
@[simp] theorem State.setReg_mem (x : Nibble) (b : Byte) : (s.setReg x b).mem = s.mem := rfl
@[simp] theorem State.setReg_pix (x : Nibble) (b : Byte) : (s.setReg x b).pix = s.pix := rfl
@[simp] theorem State.setReg_keyValid (x : Nibble) (b : Byte) : (s.setReg x b).keyValid = s.keyValid := rfl
@[simp] theorem State.setReg_key (x : Nibble) (b : Byte) : (s.setReg x b).key = s.key := rfl
@[simp] theorem State.setReg_draws (x : Nibble) (b : Byte) : (s.setReg x b).draws = s.draws := rfl
@[simp] theorem State.setReg_agenda (x : Nibble) (b : Byte) : (s.setReg x b).agenda = s.agenda := rfl
@[simp] theorem State.setReg_emitted (x : Nibble) (b : Byte) : (s.setReg x b).emitted = s.emitted := rfl

@[simp] theorem State.setRegs_v (w : Vector Byte 16) : (s.setRegs w).v = w := rfl
@[simp] theorem State.setRegs_pc (w : Vector Byte 16) : (s.setRegs w).pc = s.pc := rfl
@[simp] theorem State.setRegs_idx (w : Vector Byte 16) : (s.setRegs w).idx = s.idx := rfl
@[simp] theorem State.setRegs_dt (w : Vector Byte 16) : (s.setRegs w).dt = s.dt := rfl
@[simp] theorem State.setRegs_st (w : Vector Byte 16) : (s.setRegs w).st = s.st := rfl
@[simp] theorem State.setRegs_stack (w : Vector Byte 16) : (s.setRegs w).stack = s.stack := rfl
@[simp] theorem State.setRegs_sp (w : Vector Byte 16) : (s.setRegs w).sp = s.sp := rfl
@[simp] theorem State.setRegs_executor (w : Vector Byte 16) : (s.setRegs w).executor = s.executor := rfl
@[simp] theorem State.setRegs_waitX (w : Vector Byte 16) : (s.setRegs w).waitX = s.waitX := rfl
@[simp] theorem State.setRegs_haltCause (w : Vector Byte 16) : (s.setRegs w).haltCause = s.haltCause := rfl
@[simp] theorem State.setRegs_haltWord (w : Vector Byte 16) : (s.setRegs w).haltWord = s.haltWord := rfl
@[simp] theorem State.setRegs_haltAddr (w : Vector Byte 16) : (s.setRegs w).haltAddr = s.haltAddr := rfl
@[simp] theorem State.setRegs_mem (w : Vector Byte 16) : (s.setRegs w).mem = s.mem := rfl
@[simp] theorem State.setRegs_pix (w : Vector Byte 16) : (s.setRegs w).pix = s.pix := rfl
@[simp] theorem State.setRegs_keyValid (w : Vector Byte 16) : (s.setRegs w).keyValid = s.keyValid := rfl
@[simp] theorem State.setRegs_key (w : Vector Byte 16) : (s.setRegs w).key = s.key := rfl
@[simp] theorem State.setRegs_draws (w : Vector Byte 16) : (s.setRegs w).draws = s.draws := rfl
@[simp] theorem State.setRegs_agenda (w : Vector Byte 16) : (s.setRegs w).agenda = s.agenda := rfl
@[simp] theorem State.setRegs_emitted (w : Vector Byte 16) : (s.setRegs w).emitted = s.emitted := rfl

@[simp] theorem State.setPc_v (a : Addr) : (s.setPc a).v = s.v := rfl
@[simp] theorem State.setPc_pc (a : Addr) : (s.setPc a).pc = a := rfl
@[simp] theorem State.setPc_idx (a : Addr) : (s.setPc a).idx = s.idx := rfl
@[simp] theorem State.setPc_dt (a : Addr) : (s.setPc a).dt = s.dt := rfl
@[simp] theorem State.setPc_st (a : Addr) : (s.setPc a).st = s.st := rfl
@[simp] theorem State.setPc_stack (a : Addr) : (s.setPc a).stack = s.stack := rfl
@[simp] theorem State.setPc_sp (a : Addr) : (s.setPc a).sp = s.sp := rfl
@[simp] theorem State.setPc_executor (a : Addr) : (s.setPc a).executor = s.executor := rfl
@[simp] theorem State.setPc_waitX (a : Addr) : (s.setPc a).waitX = s.waitX := rfl
@[simp] theorem State.setPc_haltCause (a : Addr) : (s.setPc a).haltCause = s.haltCause := rfl
@[simp] theorem State.setPc_haltWord (a : Addr) : (s.setPc a).haltWord = s.haltWord := rfl
@[simp] theorem State.setPc_haltAddr (a : Addr) : (s.setPc a).haltAddr = s.haltAddr := rfl
@[simp] theorem State.setPc_mem (a : Addr) : (s.setPc a).mem = s.mem := rfl
@[simp] theorem State.setPc_pix (a : Addr) : (s.setPc a).pix = s.pix := rfl
@[simp] theorem State.setPc_keyValid (a : Addr) : (s.setPc a).keyValid = s.keyValid := rfl
@[simp] theorem State.setPc_key (a : Addr) : (s.setPc a).key = s.key := rfl
@[simp] theorem State.setPc_draws (a : Addr) : (s.setPc a).draws = s.draws := rfl
@[simp] theorem State.setPc_agenda (a : Addr) : (s.setPc a).agenda = s.agenda := rfl
@[simp] theorem State.setPc_emitted (a : Addr) : (s.setPc a).emitted = s.emitted := rfl

@[simp] theorem State.setIdx_v (a : Addr) : (s.setIdx a).v = s.v := rfl
@[simp] theorem State.setIdx_pc (a : Addr) : (s.setIdx a).pc = s.pc := rfl
@[simp] theorem State.setIdx_idx (a : Addr) : (s.setIdx a).idx = a := rfl
@[simp] theorem State.setIdx_dt (a : Addr) : (s.setIdx a).dt = s.dt := rfl
@[simp] theorem State.setIdx_st (a : Addr) : (s.setIdx a).st = s.st := rfl
@[simp] theorem State.setIdx_stack (a : Addr) : (s.setIdx a).stack = s.stack := rfl
@[simp] theorem State.setIdx_sp (a : Addr) : (s.setIdx a).sp = s.sp := rfl
@[simp] theorem State.setIdx_executor (a : Addr) : (s.setIdx a).executor = s.executor := rfl
@[simp] theorem State.setIdx_waitX (a : Addr) : (s.setIdx a).waitX = s.waitX := rfl
@[simp] theorem State.setIdx_haltCause (a : Addr) : (s.setIdx a).haltCause = s.haltCause := rfl
@[simp] theorem State.setIdx_haltWord (a : Addr) : (s.setIdx a).haltWord = s.haltWord := rfl
@[simp] theorem State.setIdx_haltAddr (a : Addr) : (s.setIdx a).haltAddr = s.haltAddr := rfl
@[simp] theorem State.setIdx_mem (a : Addr) : (s.setIdx a).mem = s.mem := rfl
@[simp] theorem State.setIdx_pix (a : Addr) : (s.setIdx a).pix = s.pix := rfl
@[simp] theorem State.setIdx_keyValid (a : Addr) : (s.setIdx a).keyValid = s.keyValid := rfl
@[simp] theorem State.setIdx_key (a : Addr) : (s.setIdx a).key = s.key := rfl
@[simp] theorem State.setIdx_draws (a : Addr) : (s.setIdx a).draws = s.draws := rfl
@[simp] theorem State.setIdx_agenda (a : Addr) : (s.setIdx a).agenda = s.agenda := rfl
@[simp] theorem State.setIdx_emitted (a : Addr) : (s.setIdx a).emitted = s.emitted := rfl

@[simp] theorem State.setDt_v (b : Byte) : (s.setDt b).v = s.v := rfl
@[simp] theorem State.setDt_pc (b : Byte) : (s.setDt b).pc = s.pc := rfl
@[simp] theorem State.setDt_idx (b : Byte) : (s.setDt b).idx = s.idx := rfl
@[simp] theorem State.setDt_dt (b : Byte) : (s.setDt b).dt = b := rfl
@[simp] theorem State.setDt_st (b : Byte) : (s.setDt b).st = s.st := rfl
@[simp] theorem State.setDt_stack (b : Byte) : (s.setDt b).stack = s.stack := rfl
@[simp] theorem State.setDt_sp (b : Byte) : (s.setDt b).sp = s.sp := rfl
@[simp] theorem State.setDt_executor (b : Byte) : (s.setDt b).executor = s.executor := rfl
@[simp] theorem State.setDt_waitX (b : Byte) : (s.setDt b).waitX = s.waitX := rfl
@[simp] theorem State.setDt_haltCause (b : Byte) : (s.setDt b).haltCause = s.haltCause := rfl
@[simp] theorem State.setDt_haltWord (b : Byte) : (s.setDt b).haltWord = s.haltWord := rfl
@[simp] theorem State.setDt_haltAddr (b : Byte) : (s.setDt b).haltAddr = s.haltAddr := rfl
@[simp] theorem State.setDt_mem (b : Byte) : (s.setDt b).mem = s.mem := rfl
@[simp] theorem State.setDt_pix (b : Byte) : (s.setDt b).pix = s.pix := rfl
@[simp] theorem State.setDt_keyValid (b : Byte) : (s.setDt b).keyValid = s.keyValid := rfl
@[simp] theorem State.setDt_key (b : Byte) : (s.setDt b).key = s.key := rfl
@[simp] theorem State.setDt_draws (b : Byte) : (s.setDt b).draws = s.draws := rfl
@[simp] theorem State.setDt_agenda (b : Byte) : (s.setDt b).agenda = s.agenda := rfl
@[simp] theorem State.setDt_emitted (b : Byte) : (s.setDt b).emitted = s.emitted := rfl

@[simp] theorem State.setSt_v (b : Byte) : (s.setSt b).v = s.v := rfl
@[simp] theorem State.setSt_pc (b : Byte) : (s.setSt b).pc = s.pc := rfl
@[simp] theorem State.setSt_idx (b : Byte) : (s.setSt b).idx = s.idx := rfl
@[simp] theorem State.setSt_dt (b : Byte) : (s.setSt b).dt = s.dt := rfl
@[simp] theorem State.setSt_st (b : Byte) : (s.setSt b).st = b := rfl
@[simp] theorem State.setSt_stack (b : Byte) : (s.setSt b).stack = s.stack := rfl
@[simp] theorem State.setSt_sp (b : Byte) : (s.setSt b).sp = s.sp := rfl
@[simp] theorem State.setSt_executor (b : Byte) : (s.setSt b).executor = s.executor := rfl
@[simp] theorem State.setSt_waitX (b : Byte) : (s.setSt b).waitX = s.waitX := rfl
@[simp] theorem State.setSt_haltCause (b : Byte) : (s.setSt b).haltCause = s.haltCause := rfl
@[simp] theorem State.setSt_haltWord (b : Byte) : (s.setSt b).haltWord = s.haltWord := rfl
@[simp] theorem State.setSt_haltAddr (b : Byte) : (s.setSt b).haltAddr = s.haltAddr := rfl
@[simp] theorem State.setSt_mem (b : Byte) : (s.setSt b).mem = s.mem := rfl
@[simp] theorem State.setSt_pix (b : Byte) : (s.setSt b).pix = s.pix := rfl
@[simp] theorem State.setSt_keyValid (b : Byte) : (s.setSt b).keyValid = s.keyValid := rfl
@[simp] theorem State.setSt_key (b : Byte) : (s.setSt b).key = s.key := rfl
@[simp] theorem State.setSt_draws (b : Byte) : (s.setSt b).draws = s.draws := rfl
@[simp] theorem State.setSt_agenda (b : Byte) : (s.setSt b).agenda = s.agenda := rfl
@[simp] theorem State.setSt_emitted (b : Byte) : (s.setSt b).emitted = s.emitted := rfl

@[simp] theorem State.setMem_v (m : Memory) : (s.setMem m).v = s.v := rfl
@[simp] theorem State.setMem_pc (m : Memory) : (s.setMem m).pc = s.pc := rfl
@[simp] theorem State.setMem_idx (m : Memory) : (s.setMem m).idx = s.idx := rfl
@[simp] theorem State.setMem_dt (m : Memory) : (s.setMem m).dt = s.dt := rfl
@[simp] theorem State.setMem_st (m : Memory) : (s.setMem m).st = s.st := rfl
@[simp] theorem State.setMem_stack (m : Memory) : (s.setMem m).stack = s.stack := rfl
@[simp] theorem State.setMem_sp (m : Memory) : (s.setMem m).sp = s.sp := rfl
@[simp] theorem State.setMem_executor (m : Memory) : (s.setMem m).executor = s.executor := rfl
@[simp] theorem State.setMem_waitX (m : Memory) : (s.setMem m).waitX = s.waitX := rfl
@[simp] theorem State.setMem_haltCause (m : Memory) : (s.setMem m).haltCause = s.haltCause := rfl
@[simp] theorem State.setMem_haltWord (m : Memory) : (s.setMem m).haltWord = s.haltWord := rfl
@[simp] theorem State.setMem_haltAddr (m : Memory) : (s.setMem m).haltAddr = s.haltAddr := rfl
@[simp] theorem State.setMem_mem (m : Memory) : (s.setMem m).mem = m := rfl
@[simp] theorem State.setMem_pix (m : Memory) : (s.setMem m).pix = s.pix := rfl
@[simp] theorem State.setMem_keyValid (m : Memory) : (s.setMem m).keyValid = s.keyValid := rfl
@[simp] theorem State.setMem_key (m : Memory) : (s.setMem m).key = s.key := rfl
@[simp] theorem State.setMem_draws (m : Memory) : (s.setMem m).draws = s.draws := rfl
@[simp] theorem State.setMem_agenda (m : Memory) : (s.setMem m).agenda = s.agenda := rfl
@[simp] theorem State.setMem_emitted (m : Memory) : (s.setMem m).emitted = s.emitted := rfl

@[simp] theorem State.setPix_v (g : Grid) : (s.setPix g).v = s.v := rfl
@[simp] theorem State.setPix_pc (g : Grid) : (s.setPix g).pc = s.pc := rfl
@[simp] theorem State.setPix_idx (g : Grid) : (s.setPix g).idx = s.idx := rfl
@[simp] theorem State.setPix_dt (g : Grid) : (s.setPix g).dt = s.dt := rfl
@[simp] theorem State.setPix_st (g : Grid) : (s.setPix g).st = s.st := rfl
@[simp] theorem State.setPix_stack (g : Grid) : (s.setPix g).stack = s.stack := rfl
@[simp] theorem State.setPix_sp (g : Grid) : (s.setPix g).sp = s.sp := rfl
@[simp] theorem State.setPix_executor (g : Grid) : (s.setPix g).executor = s.executor := rfl
@[simp] theorem State.setPix_waitX (g : Grid) : (s.setPix g).waitX = s.waitX := rfl
@[simp] theorem State.setPix_haltCause (g : Grid) : (s.setPix g).haltCause = s.haltCause := rfl
@[simp] theorem State.setPix_haltWord (g : Grid) : (s.setPix g).haltWord = s.haltWord := rfl
@[simp] theorem State.setPix_haltAddr (g : Grid) : (s.setPix g).haltAddr = s.haltAddr := rfl
@[simp] theorem State.setPix_mem (g : Grid) : (s.setPix g).mem = s.mem := rfl
@[simp] theorem State.setPix_pix (g : Grid) : (s.setPix g).pix = g := rfl
@[simp] theorem State.setPix_keyValid (g : Grid) : (s.setPix g).keyValid = s.keyValid := rfl
@[simp] theorem State.setPix_key (g : Grid) : (s.setPix g).key = s.key := rfl
@[simp] theorem State.setPix_draws (g : Grid) : (s.setPix g).draws = s.draws := rfl
@[simp] theorem State.setPix_agenda (g : Grid) : (s.setPix g).agenda = s.agenda := rfl
@[simp] theorem State.setPix_emitted (g : Grid) : (s.setPix g).emitted = s.emitted := rfl

@[simp] theorem State.push_v (a : Addr) : (s.push a).v = s.v := rfl
@[simp] theorem State.push_pc (a : Addr) : (s.push a).pc = s.pc := rfl
@[simp] theorem State.push_idx (a : Addr) : (s.push a).idx = s.idx := rfl
@[simp] theorem State.push_dt (a : Addr) : (s.push a).dt = s.dt := rfl
@[simp] theorem State.push_st (a : Addr) : (s.push a).st = s.st := rfl
@[simp] theorem State.push_stack (a : Addr) : (s.push a).stack = s.stack.set (s.sp + 1).toNat a (s.sp + 1).isLt := rfl
@[simp] theorem State.push_sp (a : Addr) : (s.push a).sp = s.sp + 1 := rfl
@[simp] theorem State.push_executor (a : Addr) : (s.push a).executor = s.executor := rfl
@[simp] theorem State.push_waitX (a : Addr) : (s.push a).waitX = s.waitX := rfl
@[simp] theorem State.push_haltCause (a : Addr) : (s.push a).haltCause = s.haltCause := rfl
@[simp] theorem State.push_haltWord (a : Addr) : (s.push a).haltWord = s.haltWord := rfl
@[simp] theorem State.push_haltAddr (a : Addr) : (s.push a).haltAddr = s.haltAddr := rfl
@[simp] theorem State.push_mem (a : Addr) : (s.push a).mem = s.mem := rfl
@[simp] theorem State.push_pix (a : Addr) : (s.push a).pix = s.pix := rfl
@[simp] theorem State.push_keyValid (a : Addr) : (s.push a).keyValid = s.keyValid := rfl
@[simp] theorem State.push_key (a : Addr) : (s.push a).key = s.key := rfl
@[simp] theorem State.push_draws (a : Addr) : (s.push a).draws = s.draws := rfl
@[simp] theorem State.push_agenda (a : Addr) : (s.push a).agenda = s.agenda := rfl
@[simp] theorem State.push_emitted (a : Addr) : (s.push a).emitted = s.emitted := rfl

@[simp] theorem State.pop_v : (s.pop).v = s.v := rfl
@[simp] theorem State.pop_pc : (s.pop).pc = s.top := rfl
@[simp] theorem State.pop_idx : (s.pop).idx = s.idx := rfl
@[simp] theorem State.pop_dt : (s.pop).dt = s.dt := rfl
@[simp] theorem State.pop_st : (s.pop).st = s.st := rfl
@[simp] theorem State.pop_stack : (s.pop).stack = s.stack := rfl
@[simp] theorem State.pop_sp : (s.pop).sp = s.sp - 1 := rfl
@[simp] theorem State.pop_executor : (s.pop).executor = s.executor := rfl
@[simp] theorem State.pop_waitX : (s.pop).waitX = s.waitX := rfl
@[simp] theorem State.pop_haltCause : (s.pop).haltCause = s.haltCause := rfl
@[simp] theorem State.pop_haltWord : (s.pop).haltWord = s.haltWord := rfl
@[simp] theorem State.pop_haltAddr : (s.pop).haltAddr = s.haltAddr := rfl
@[simp] theorem State.pop_mem : (s.pop).mem = s.mem := rfl
@[simp] theorem State.pop_pix : (s.pop).pix = s.pix := rfl
@[simp] theorem State.pop_keyValid : (s.pop).keyValid = s.keyValid := rfl
@[simp] theorem State.pop_key : (s.pop).key = s.key := rfl
@[simp] theorem State.pop_draws : (s.pop).draws = s.draws := rfl
@[simp] theorem State.pop_agenda : (s.pop).agenda = s.agenda := rfl
@[simp] theorem State.pop_emitted : (s.pop).emitted = s.emitted := rfl

@[simp] theorem State.emit_v (e : Output) : (s.emit e).v = s.v := rfl
@[simp] theorem State.emit_pc (e : Output) : (s.emit e).pc = s.pc := rfl
@[simp] theorem State.emit_idx (e : Output) : (s.emit e).idx = s.idx := rfl
@[simp] theorem State.emit_dt (e : Output) : (s.emit e).dt = s.dt := rfl
@[simp] theorem State.emit_st (e : Output) : (s.emit e).st = s.st := rfl
@[simp] theorem State.emit_stack (e : Output) : (s.emit e).stack = s.stack := rfl
@[simp] theorem State.emit_sp (e : Output) : (s.emit e).sp = s.sp := rfl
@[simp] theorem State.emit_executor (e : Output) : (s.emit e).executor = s.executor := rfl
@[simp] theorem State.emit_waitX (e : Output) : (s.emit e).waitX = s.waitX := rfl
@[simp] theorem State.emit_haltCause (e : Output) : (s.emit e).haltCause = s.haltCause := rfl
@[simp] theorem State.emit_haltWord (e : Output) : (s.emit e).haltWord = s.haltWord := rfl
@[simp] theorem State.emit_haltAddr (e : Output) : (s.emit e).haltAddr = s.haltAddr := rfl
@[simp] theorem State.emit_mem (e : Output) : (s.emit e).mem = s.mem := rfl
@[simp] theorem State.emit_pix (e : Output) : (s.emit e).pix = s.pix := rfl
@[simp] theorem State.emit_keyValid (e : Output) : (s.emit e).keyValid = s.keyValid := rfl
@[simp] theorem State.emit_key (e : Output) : (s.emit e).key = s.key := rfl
@[simp] theorem State.emit_draws (e : Output) : (s.emit e).draws = s.draws := rfl
@[simp] theorem State.emit_agenda (e : Output) : (s.emit e).agenda = s.agenda := rfl
@[simp] theorem State.emit_emitted (e : Output) : (s.emit e).emitted = e :: s.emitted := rfl

@[simp] theorem State.countDraw_v : (s.countDraw).v = s.v := rfl
@[simp] theorem State.countDraw_pc : (s.countDraw).pc = s.pc := rfl
@[simp] theorem State.countDraw_idx : (s.countDraw).idx = s.idx := rfl
@[simp] theorem State.countDraw_dt : (s.countDraw).dt = s.dt := rfl
@[simp] theorem State.countDraw_st : (s.countDraw).st = s.st := rfl
@[simp] theorem State.countDraw_stack : (s.countDraw).stack = s.stack := rfl
@[simp] theorem State.countDraw_sp : (s.countDraw).sp = s.sp := rfl
@[simp] theorem State.countDraw_executor : (s.countDraw).executor = s.executor := rfl
@[simp] theorem State.countDraw_waitX : (s.countDraw).waitX = s.waitX := rfl
@[simp] theorem State.countDraw_haltCause : (s.countDraw).haltCause = s.haltCause := rfl
@[simp] theorem State.countDraw_haltWord : (s.countDraw).haltWord = s.haltWord := rfl
@[simp] theorem State.countDraw_haltAddr : (s.countDraw).haltAddr = s.haltAddr := rfl
@[simp] theorem State.countDraw_mem : (s.countDraw).mem = s.mem := rfl
@[simp] theorem State.countDraw_pix : (s.countDraw).pix = s.pix := rfl
@[simp] theorem State.countDraw_keyValid : (s.countDraw).keyValid = s.keyValid := rfl
@[simp] theorem State.countDraw_key : (s.countDraw).key = s.key := rfl
@[simp] theorem State.countDraw_draws : (s.countDraw).draws = s.draws + 1 := rfl
@[simp] theorem State.countDraw_agenda : (s.countDraw).agenda = s.agenda := rfl
@[simp] theorem State.countDraw_emitted : (s.countDraw).emitted = s.emitted := rfl

@[simp] theorem State.park_v (x : Nibble) : (s.park x).v = s.v := rfl
@[simp] theorem State.park_pc (x : Nibble) : (s.park x).pc = s.pc := rfl
@[simp] theorem State.park_idx (x : Nibble) : (s.park x).idx = s.idx := rfl
@[simp] theorem State.park_dt (x : Nibble) : (s.park x).dt = s.dt := rfl
@[simp] theorem State.park_st (x : Nibble) : (s.park x).st = s.st := rfl
@[simp] theorem State.park_stack (x : Nibble) : (s.park x).stack = s.stack := rfl
@[simp] theorem State.park_sp (x : Nibble) : (s.park x).sp = s.sp := rfl
@[simp] theorem State.park_executor (x : Nibble) : (s.park x).executor = .waitingForKey := rfl
@[simp] theorem State.park_waitX (x : Nibble) : (s.park x).waitX = x := rfl
@[simp] theorem State.park_haltCause (x : Nibble) : (s.park x).haltCause = s.haltCause := rfl
@[simp] theorem State.park_haltWord (x : Nibble) : (s.park x).haltWord = s.haltWord := rfl
@[simp] theorem State.park_haltAddr (x : Nibble) : (s.park x).haltAddr = s.haltAddr := rfl
@[simp] theorem State.park_mem (x : Nibble) : (s.park x).mem = s.mem := rfl
@[simp] theorem State.park_pix (x : Nibble) : (s.park x).pix = s.pix := rfl
@[simp] theorem State.park_keyValid (x : Nibble) : (s.park x).keyValid = s.keyValid := rfl
@[simp] theorem State.park_key (x : Nibble) : (s.park x).key = s.key := rfl
@[simp] theorem State.park_draws (x : Nibble) : (s.park x).draws = s.draws := rfl
@[simp] theorem State.park_agenda (x : Nibble) : (s.park x).agenda = s.agenda := rfl
@[simp] theorem State.park_emitted (x : Nibble) : (s.park x).emitted = s.emitted := rfl

@[simp] theorem State.halt_v (c : HaltCause) (w : InsnWord) (a : BitVec 13) : (s.halt c w a).v = s.v := rfl
@[simp] theorem State.halt_pc (c : HaltCause) (w : InsnWord) (a : BitVec 13) : (s.halt c w a).pc = s.pc := rfl
@[simp] theorem State.halt_idx (c : HaltCause) (w : InsnWord) (a : BitVec 13) : (s.halt c w a).idx = s.idx := rfl
@[simp] theorem State.halt_dt (c : HaltCause) (w : InsnWord) (a : BitVec 13) : (s.halt c w a).dt = s.dt := rfl
@[simp] theorem State.halt_st (c : HaltCause) (w : InsnWord) (a : BitVec 13) : (s.halt c w a).st = s.st := rfl
@[simp] theorem State.halt_stack (c : HaltCause) (w : InsnWord) (a : BitVec 13) : (s.halt c w a).stack = s.stack := rfl
@[simp] theorem State.halt_sp (c : HaltCause) (w : InsnWord) (a : BitVec 13) : (s.halt c w a).sp = s.sp := rfl
@[simp] theorem State.halt_executor (c : HaltCause) (w : InsnWord) (a : BitVec 13) : (s.halt c w a).executor = .halted := rfl
@[simp] theorem State.halt_waitX (c : HaltCause) (w : InsnWord) (a : BitVec 13) : (s.halt c w a).waitX = s.waitX := rfl
@[simp] theorem State.halt_haltCause (c : HaltCause) (w : InsnWord) (a : BitVec 13) : (s.halt c w a).haltCause = c.code := rfl
@[simp] theorem State.halt_haltWord (c : HaltCause) (w : InsnWord) (a : BitVec 13) : (s.halt c w a).haltWord = w := rfl
@[simp] theorem State.halt_haltAddr (c : HaltCause) (w : InsnWord) (a : BitVec 13) : (s.halt c w a).haltAddr = a := rfl
@[simp] theorem State.halt_mem (c : HaltCause) (w : InsnWord) (a : BitVec 13) : (s.halt c w a).mem = s.mem := rfl
@[simp] theorem State.halt_pix (c : HaltCause) (w : InsnWord) (a : BitVec 13) : (s.halt c w a).pix = s.pix := rfl
@[simp] theorem State.halt_keyValid (c : HaltCause) (w : InsnWord) (a : BitVec 13) : (s.halt c w a).keyValid = s.keyValid := rfl
@[simp] theorem State.halt_key (c : HaltCause) (w : InsnWord) (a : BitVec 13) : (s.halt c w a).key = s.key := rfl
@[simp] theorem State.halt_draws (c : HaltCause) (w : InsnWord) (a : BitVec 13) : (s.halt c w a).draws = s.draws := rfl
@[simp] theorem State.halt_agenda (c : HaltCause) (w : InsnWord) (a : BitVec 13) : (s.halt c w a).agenda = s.agenda := rfl
@[simp] theorem State.halt_emitted (c : HaltCause) (w : InsnWord) (a : BitVec 13) : (s.halt c w a).emitted = .diag c.code w a :: s.emitted := rfl

@[simp] theorem State.keyDown_v (k : Nibble) : (s.keyDown k).v = s.v := rfl
@[simp] theorem State.keyDown_pc (k : Nibble) : (s.keyDown k).pc = s.pc := rfl
@[simp] theorem State.keyDown_idx (k : Nibble) : (s.keyDown k).idx = s.idx := rfl
@[simp] theorem State.keyDown_dt (k : Nibble) : (s.keyDown k).dt = s.dt := rfl
@[simp] theorem State.keyDown_st (k : Nibble) : (s.keyDown k).st = s.st := rfl
@[simp] theorem State.keyDown_stack (k : Nibble) : (s.keyDown k).stack = s.stack := rfl
@[simp] theorem State.keyDown_sp (k : Nibble) : (s.keyDown k).sp = s.sp := rfl
@[simp] theorem State.keyDown_executor (k : Nibble) : (s.keyDown k).executor = s.executor := rfl
@[simp] theorem State.keyDown_waitX (k : Nibble) : (s.keyDown k).waitX = s.waitX := rfl
@[simp] theorem State.keyDown_haltCause (k : Nibble) : (s.keyDown k).haltCause = s.haltCause := rfl
@[simp] theorem State.keyDown_haltWord (k : Nibble) : (s.keyDown k).haltWord = s.haltWord := rfl
@[simp] theorem State.keyDown_haltAddr (k : Nibble) : (s.keyDown k).haltAddr = s.haltAddr := rfl
@[simp] theorem State.keyDown_mem (k : Nibble) : (s.keyDown k).mem = s.mem := rfl
@[simp] theorem State.keyDown_pix (k : Nibble) : (s.keyDown k).pix = s.pix := rfl
@[simp] theorem State.keyDown_keyValid (k : Nibble) : (s.keyDown k).keyValid = true := rfl
@[simp] theorem State.keyDown_key (k : Nibble) : (s.keyDown k).key = k := rfl
@[simp] theorem State.keyDown_draws (k : Nibble) : (s.keyDown k).draws = s.draws := rfl
@[simp] theorem State.keyDown_agenda (k : Nibble) : (s.keyDown k).agenda = s.agenda := rfl
@[simp] theorem State.keyDown_emitted (k : Nibble) : (s.keyDown k).emitted = s.emitted := rfl

@[simp] theorem State.release_v : (s.release).v = s.v := rfl
@[simp] theorem State.release_pc : (s.release).pc = s.pc := rfl
@[simp] theorem State.release_idx : (s.release).idx = s.idx := rfl
@[simp] theorem State.release_dt : (s.release).dt = s.dt := rfl
@[simp] theorem State.release_st : (s.release).st = s.st := rfl
@[simp] theorem State.release_stack : (s.release).stack = s.stack := rfl
@[simp] theorem State.release_sp : (s.release).sp = s.sp := rfl
@[simp] theorem State.release_executor : (s.release).executor = s.executor := rfl
@[simp] theorem State.release_waitX : (s.release).waitX = s.waitX := rfl
@[simp] theorem State.release_haltCause : (s.release).haltCause = s.haltCause := rfl
@[simp] theorem State.release_haltWord : (s.release).haltWord = s.haltWord := rfl
@[simp] theorem State.release_haltAddr : (s.release).haltAddr = s.haltAddr := rfl
@[simp] theorem State.release_mem : (s.release).mem = s.mem := rfl
@[simp] theorem State.release_pix : (s.release).pix = s.pix := rfl
@[simp] theorem State.release_keyValid : (s.release).keyValid = false := rfl
@[simp] theorem State.release_key : (s.release).key = s.key := rfl
@[simp] theorem State.release_draws : (s.release).draws = s.draws := rfl
@[simp] theorem State.release_agenda : (s.release).agenda = s.agenda := rfl
@[simp] theorem State.release_emitted : (s.release).emitted = s.emitted := rfl

@[simp] theorem State.endKeyWait_v (k : Nibble) : (s.endKeyWait k).v = s.v.set s.waitX.toNat (k.setWidth 8) s.waitX.isLt := rfl
@[simp] theorem State.endKeyWait_pc (k : Nibble) : (s.endKeyWait k).pc = s.pc := rfl
@[simp] theorem State.endKeyWait_idx (k : Nibble) : (s.endKeyWait k).idx = s.idx := rfl
@[simp] theorem State.endKeyWait_dt (k : Nibble) : (s.endKeyWait k).dt = s.dt := rfl
@[simp] theorem State.endKeyWait_st (k : Nibble) : (s.endKeyWait k).st = s.st := rfl
@[simp] theorem State.endKeyWait_stack (k : Nibble) : (s.endKeyWait k).stack = s.stack := rfl
@[simp] theorem State.endKeyWait_sp (k : Nibble) : (s.endKeyWait k).sp = s.sp := rfl
@[simp] theorem State.endKeyWait_executor (k : Nibble) : (s.endKeyWait k).executor = .running := rfl
@[simp] theorem State.endKeyWait_waitX (k : Nibble) : (s.endKeyWait k).waitX = s.waitX := rfl
@[simp] theorem State.endKeyWait_haltCause (k : Nibble) : (s.endKeyWait k).haltCause = s.haltCause := rfl
@[simp] theorem State.endKeyWait_haltWord (k : Nibble) : (s.endKeyWait k).haltWord = s.haltWord := rfl
@[simp] theorem State.endKeyWait_haltAddr (k : Nibble) : (s.endKeyWait k).haltAddr = s.haltAddr := rfl
@[simp] theorem State.endKeyWait_mem (k : Nibble) : (s.endKeyWait k).mem = s.mem := rfl
@[simp] theorem State.endKeyWait_pix (k : Nibble) : (s.endKeyWait k).pix = s.pix := rfl
@[simp] theorem State.endKeyWait_keyValid (k : Nibble) : (s.endKeyWait k).keyValid = s.keyValid := rfl
@[simp] theorem State.endKeyWait_key (k : Nibble) : (s.endKeyWait k).key = s.key := rfl
@[simp] theorem State.endKeyWait_draws (k : Nibble) : (s.endKeyWait k).draws = s.draws := rfl
@[simp] theorem State.endKeyWait_agenda (k : Nibble) : (s.endKeyWait k).agenda = s.agenda := rfl
@[simp] theorem State.endKeyWait_emitted (k : Nibble) : (s.endKeyWait k).emitted = s.emitted := rfl

@[simp] theorem State.setAgenda_v (l : List Event) : (s.setAgenda l).v = s.v := rfl
@[simp] theorem State.setAgenda_pc (l : List Event) : (s.setAgenda l).pc = s.pc := rfl
@[simp] theorem State.setAgenda_idx (l : List Event) : (s.setAgenda l).idx = s.idx := rfl
@[simp] theorem State.setAgenda_dt (l : List Event) : (s.setAgenda l).dt = s.dt := rfl
@[simp] theorem State.setAgenda_st (l : List Event) : (s.setAgenda l).st = s.st := rfl
@[simp] theorem State.setAgenda_stack (l : List Event) : (s.setAgenda l).stack = s.stack := rfl
@[simp] theorem State.setAgenda_sp (l : List Event) : (s.setAgenda l).sp = s.sp := rfl
@[simp] theorem State.setAgenda_executor (l : List Event) : (s.setAgenda l).executor = s.executor := rfl
@[simp] theorem State.setAgenda_waitX (l : List Event) : (s.setAgenda l).waitX = s.waitX := rfl
@[simp] theorem State.setAgenda_haltCause (l : List Event) : (s.setAgenda l).haltCause = s.haltCause := rfl
@[simp] theorem State.setAgenda_haltWord (l : List Event) : (s.setAgenda l).haltWord = s.haltWord := rfl
@[simp] theorem State.setAgenda_haltAddr (l : List Event) : (s.setAgenda l).haltAddr = s.haltAddr := rfl
@[simp] theorem State.setAgenda_mem (l : List Event) : (s.setAgenda l).mem = s.mem := rfl
@[simp] theorem State.setAgenda_pix (l : List Event) : (s.setAgenda l).pix = s.pix := rfl
@[simp] theorem State.setAgenda_keyValid (l : List Event) : (s.setAgenda l).keyValid = s.keyValid := rfl
@[simp] theorem State.setAgenda_key (l : List Event) : (s.setAgenda l).key = s.key := rfl
@[simp] theorem State.setAgenda_draws (l : List Event) : (s.setAgenda l).draws = s.draws := rfl
@[simp] theorem State.setAgenda_agenda (l : List Event) : (s.setAgenda l).agenda = l := rfl
@[simp] theorem State.setAgenda_emitted (l : List Event) : (s.setAgenda l).emitted = s.emitted := rfl

end Sys2Proof.Machine
end

