-- ==== Sys2Proof/Laws/Regs.lean ====
section
/-!
SUPPORT. The register file's laws (spec 10_state.md R10; 42_index_memory.md R124, R125).
-/

namespace Sys2Proof.Machine

theorem State.getReg_setReg (s : State) (x j : Nibble) (b : Byte) :
    (s.setReg x b).getReg j = if j = x then b else s.getReg j := by
  by_cases h : j = x
  · simp [State.getReg, h]
  · have hn : x.toNat ≠ j.toNat := fun e => h (BitVec.eq_of_toNat_eq e.symm)
    simp [State.getReg, h, hn]

@[simp] theorem State.getReg_setReg_same (s : State) (x : Nibble) (b : Byte) : (s.setReg x b).getReg x = b := by
  simp [State.getReg_setReg]

theorem State.getReg_setReg_other (s : State) {x j : Nibble} (b : Byte) (h : j ≠ x) :
    (s.setReg x b).getReg j = s.getReg j := by
  simp [State.getReg_setReg, h]

/-- Two states with equal register files read alike. -/
theorem State.getReg_congr {s t : State} (h : s.v = t.v) (x : Nibble) : s.getReg x = t.getReg x := by
  simp [State.getReg, h]

/-- The register file is determined by its sixteen reads. -/
theorem State.v_ext {s t : State} (h : ∀ x, s.getReg x = t.getReg x) : s.v = t.v := by
  apply Vector.ext
  intro j hj
  have := h (BitVec.ofNat 4 j)
  simpa [State.getReg, Nat.mod_eq_of_lt hj] using this

@[simp] theorem State.regsUpTo_length (s : State) (x : Nibble) : (s.regsUpTo x).length = regCount x := by
  have := x.isLt
  simp only [State.regsUpTo, List.length_take, Vector.length_toList, regCount]
  omega

theorem State.regsUpTo_getElem (s : State) (x : Nibble) (j : Nat) (hj : j < (s.regsUpTo x).length) :
    (s.regsUpTo x)[j] = s.getReg (BitVec.ofNat 4 j) := by
  have hj16 : j < 16 := by
    have := x.isLt
    simp [regCount] at hj
    omega
  simp [State.regsUpTo, State.getReg, Nat.mod_eq_of_lt hj16]

/-- What loading registers in order leaves in register `k`. -/
theorem putRegs_getElem (v : Vector Byte 16) (j : Nat) (bs : List Byte) (k : Nat) (hk : k < 16) :
    (putRegs v j bs)[k] = if h : j ≤ k ∧ k - j < bs.length then bs[k - j]'h.2 else v[k] := by
  induction bs generalizing v j with
  | nil => simp [putRegs]
  | cons b bs ih =>
    rw [putRegs, ih]
    by_cases h1 : j + 1 ≤ k ∧ k - (j + 1) < bs.length
    · have h2 : j ≤ k ∧ k - j < (b :: bs).length := by simp; omega
      have h3 : k - j = (k - (j + 1)) + 1 := by omega
      rw [dif_pos h1, dif_pos h2]
      simp [h3]
    · rw [dif_neg h1]
      by_cases hjk : j = k
      · subst hjk
        simp
      · have h2 : ¬ (j ≤ k ∧ k - j < (b :: bs).length) := by simp; omega
        rw [dif_neg h2]
        simp [hjk]

end Sys2Proof.Machine
end

