-- ==== Sys2Proof/Laws/Ops.lean ====
section
/-!
SUPPORT. One lemma per shared operation that says everything it can do; later proofs cite these and do not unfold the
operations.
-/

namespace Sys2Proof.Machine

/-! ### Control -/

/-- A skip changes the pc alone (R89). -/
theorem State.skipIf_eq (s : State) (c : Bool) : s.skipIf c = s.setPc (if c then s.pc + 2 else s.pc) := by
  cases c <;> rfl

theorem State.advance_eq (s : State) : s.advance = s.setPc (s.pc + 2) := rfl

/-- The address pushed last is on top (R83, R21). -/
@[simp] theorem State.top_push (s : State) (a : Addr) : (s.push a).top = a := by simp [State.top, State.push]

/-- A push leaves every other slot alone (R83). -/
theorem State.push_slot (s : State) (a : Addr) (j : Nibble) (h : j ≠ s.sp + 1) :
    (s.push a).stack[j.toNat]'j.isLt = s.stack[j.toNat]'j.isLt := by
  have hn : (s.sp + 1).toNat ≠ j.toNat := fun e => h (BitVec.eq_of_toNat_eq e.symm)
  simp only [State.push]
  exact Vector.getElem_set_ne _ _ hn

/-- A stack fault by an instruction is the halt sequence (R171, R172). -/
theorem State.stackFault_eq (s : State) (c : HaltCause) (i : Instr) :
    s.stackFault c i = s.halt c (encode i) ((s.pc - 2).setWidth 13) := rfl

/-- A data address fault by an instruction is the halt sequence (R171, R172). -/
theorem State.dataFault_eq (s : State) (i : Instr) (hi : Nat) :
    s.dataFault i hi = s.halt .addressFault (encode i) (BitVec.ofNat 13 hi) := rfl

/-! ### Accesses through I -/

/-- The bounds check in plain numbers (R44). -/
theorem State.inBounds_iff (s : State) (len : Nat) :
    s.inBounds len = true ↔ len = 0 ∨ s.idx.toNat + len ≤ Config.memSize := by
  have := s.idx.isLt
  rw [State.inBounds, Bool.or_eq_true, decide_eq_true_iff, decide_eq_true_iff, State.highest]
  simp only [Config.memSize]
  omega

/-- A guarded access either happens or raises the fault, with none of its effects (R44, R173). -/
theorem State.guardAccess_cases (s : State) (i : Instr) (len : Nat) (done : State) :
    (s.inBounds len = true ∧ s.guardAccess i len done = done) ∨
    (s.inBounds len = false ∧ s.guardAccess i len done = s.dataFault i (s.highest len)) := by
  unfold State.guardAccess
  cases s.inBounds len
  · exact .inr ⟨rfl, rfl⟩
  · exact .inl ⟨rfl, rfl⟩

theorem State.guardAccess_done {s : State} (i : Instr) {len : Nat} (done : State) (h : s.inBounds len = true) :
    s.guardAccess i len done = done := by simp [State.guardAccess, h]

theorem State.guardAccess_fault {s : State} (i : Instr) {len : Nat} (done : State) (h : s.inBounds len = false) :
    s.guardAccess i len done = s.dataFault i (s.highest len) := by simp [State.guardAccess, h]

theorem State.storeAtI_eq (s : State) (bs : List Byte) :
    s.storeAtI bs = s.setMem (s.mem.writeBytes s.idx.toNat bs) := rfl

@[simp] theorem State.readAtI_length (s : State) (len : Nat) : (s.readAtI len).length = len :=
  Memory.readBytes_length _ _ _

@[simp] theorem decimalDigits_length (b : Byte) : (decimalDigits b).length = 3 := rfl

/-! ### Flags and arithmetic -/

@[simp] theorem State.setFlag_eq (s : State) (c : Bool) : s.setFlag c = s.setReg 0xF (flagByte c) := rfl

@[simp] theorem flagByte_true : flagByte true = 1 := rfl
@[simp] theorem flagByte_false : flagByte false = 0 := rfl

/-- The nine-bit sum is exact (R107). -/
@[simp] theorem sum9_toNat (a b : Byte) : (sum9 a b).toNat = a.toNat + b.toNat := by
  have := a.isLt
  have := b.isLt
  simp only [sum9, BitVec.toNat_add, BitVec.toNat_setWidth]
  omega

/-- The low eight bits of the sum are the wrapped sum (R107). -/
theorem sum9_setWidth (a b : Byte) : (sum9 a b).setWidth 8 = a + b := by
  apply BitVec.eq_of_toNat_eq
  simp [BitVec.toNat_add]

@[simp] theorem zextAddr_toNat (b : Byte) : (zextAddr b).toNat = b.toNat := by
  have := b.isLt
  simp only [zextAddr, BitVec.toNat_setWidth]
  omega

/-- Five times a byte fits twelve bits (R122). -/
theorem zextAddr_mul_five_toNat (b : Byte) : (zextAddr b * 5).toNat = b.toNat * 5 := by
  have := b.isLt
  have h5 : (5 : Addr).toNat = 5 := rfl
  rw [BitVec.toNat_mul, zextAddr_toNat, h5]
  omega

/-! ### Keys -/

theorem State.isPressed_iff (s : State) (b : Byte) :
    s.isPressed b = true ↔ s.keyValid = true ∧ s.key.toNat = b.toNat := by
  have hk := s.key.isLt
  simp only [State.isPressed, Bool.and_eq_true, beq_iff_eq]
  refine and_congr_right fun _ => ⟨fun h => ?_, fun h => ?_⟩
  · rw [← h, BitVec.toNat_setWidth]
    omega
  · apply BitVec.eq_of_toNat_eq
    rw [BitVec.toNat_setWidth]
    omega

end Sys2Proof.Machine
end

