-- ==== Sys2Proof/Laws/PerInstr.lean ====
section
/-!
SUPPORT. Statements made for every instruction, one lemma per constructor. RowMatch: the instruction is well formed, and
its word carries the match bits of its own row of the opcode map (spec 30_encoding.md R65 to R69).
-/

namespace Sys2Proof.Laws.RowMatch

/-- The instruction is well formed and its word selects the row of the opcode map that bears its mnemonic. -/
def Statement (i : Instr) : Prop :=
  i.wellFormed = true ∧ ∃ r ∈ opcodeMap, r.mnemonic = mnemonicOf i ∧ encode i &&& r.mask = r.pattern

/-- What the mask of formats A, I and D keeps. -/
theorem mask_op (w : InsnWord) : w &&& 0xF000#16 = fieldOp w ++ 0x000#12 := by
  apply BitVec.eq_of_getLsbD_eq
  intro k hk
  rw [BitVec.getLsbD_append, fieldOp, BitVec.getLsbD_extractLsb', BitVec.getLsbD_and]
  interval_cases k <;> simp

/-- What the mask of format R keeps. -/
theorem mask_op_n (w : InsnWord) : w &&& 0xF00F#16 = fieldOp w ++ 0x00#8 ++ fieldN w := by
  apply BitVec.eq_of_getLsbD_eq
  intro k hk
  rw [BitVec.getLsbD_append, BitVec.getLsbD_append, fieldOp, fieldN, BitVec.getLsbD_extractLsb',
    BitVec.getLsbD_extractLsb', BitVec.getLsbD_and]
  interval_cases k <;> simp

/-- What the mask of format X keeps. -/
theorem mask_op_kk (w : InsnWord) : w &&& 0xF0FF#16 = fieldOp w ++ 0x0#4 ++ fieldKk w := by
  apply BitVec.eq_of_getLsbD_eq
  intro k hk
  rw [BitVec.getLsbD_append, BitVec.getLsbD_append, fieldOp, fieldKk, BitVec.getLsbD_extractLsb',
    BitVec.getLsbD_extractLsb', BitVec.getLsbD_and]
  interval_cases k <;> simp

theorem cls : Statement .cls :=
  ⟨rfl, ⟨"CLS", 0x00E0, 0xFFFF⟩, by decide, rfl, rfl⟩

theorem ret : Statement .ret :=
  ⟨rfl, ⟨"RET", 0x00EE, 0xFFFF⟩, by decide, rfl, rfl⟩

theorem jp (nnn : Addr) : Statement (.jp nnn) :=
  ⟨rfl, ⟨"JP_nnn", 0x1000, 0xF000⟩, by decide, rfl, (mask_op _).trans (by rw [encode, fieldOp_formatA]; rfl)⟩

theorem call (nnn : Addr) : Statement (.call nnn) :=
  ⟨rfl, ⟨"CALL_nnn", 0x2000, 0xF000⟩, by decide, rfl, (mask_op _).trans (by rw [encode, fieldOp_formatA]; rfl)⟩

theorem seImm (x : Nibble) (kk : Byte) : Statement (.seImm x kk) :=
  ⟨rfl, ⟨"SE_Vx__kk", 0x3000, 0xF000⟩, by decide, rfl, (mask_op _).trans (by rw [encode, fieldOp_formatI]; rfl)⟩

theorem sneImm (x : Nibble) (kk : Byte) : Statement (.sneImm x kk) :=
  ⟨rfl, ⟨"SNE_Vx__kk", 0x4000, 0xF000⟩, by decide, rfl, (mask_op _).trans (by rw [encode, fieldOp_formatI]; rfl)⟩

theorem seReg (x y : Nibble) : Statement (.seReg x y) :=
  ⟨rfl, ⟨"SE_Vx__Vy", 0x5000, 0xF00F⟩, by decide, rfl, (mask_op_n _).trans (by rw [encode, fieldOp_formatR, fieldN_formatR]; rfl)⟩

theorem ldImm (x : Nibble) (kk : Byte) : Statement (.ldImm x kk) :=
  ⟨rfl, ⟨"LD_Vx__kk", 0x6000, 0xF000⟩, by decide, rfl, (mask_op _).trans (by rw [encode, fieldOp_formatI]; rfl)⟩

theorem addImm (x : Nibble) (kk : Byte) : Statement (.addImm x kk) :=
  ⟨rfl, ⟨"ADD_Vx__kk", 0x7000, 0xF000⟩, by decide, rfl, (mask_op _).trans (by rw [encode, fieldOp_formatI]; rfl)⟩

theorem ldReg (x y : Nibble) : Statement (.ldReg x y) :=
  ⟨rfl, ⟨"LD_Vx__Vy", 0x8000, 0xF00F⟩, by decide, rfl, (mask_op_n _).trans (by rw [encode, fieldOp_formatR, fieldN_formatR]; rfl)⟩

theorem orReg (x y : Nibble) : Statement (.orReg x y) :=
  ⟨rfl, ⟨"OR_Vx__Vy", 0x8001, 0xF00F⟩, by decide, rfl, (mask_op_n _).trans (by rw [encode, fieldOp_formatR, fieldN_formatR]; rfl)⟩

theorem andReg (x y : Nibble) : Statement (.andReg x y) :=
  ⟨rfl, ⟨"AND_Vx__Vy", 0x8002, 0xF00F⟩, by decide, rfl, (mask_op_n _).trans (by rw [encode, fieldOp_formatR, fieldN_formatR]; rfl)⟩

theorem xorReg (x y : Nibble) : Statement (.xorReg x y) :=
  ⟨rfl, ⟨"XOR_Vx__Vy", 0x8003, 0xF00F⟩, by decide, rfl, (mask_op_n _).trans (by rw [encode, fieldOp_formatR, fieldN_formatR]; rfl)⟩

theorem addReg (x y : Nibble) : Statement (.addReg x y) :=
  ⟨rfl, ⟨"ADD_Vx__Vy", 0x8004, 0xF00F⟩, by decide, rfl, (mask_op_n _).trans (by rw [encode, fieldOp_formatR, fieldN_formatR]; rfl)⟩

theorem subReg (x y : Nibble) : Statement (.subReg x y) :=
  ⟨rfl, ⟨"SUB_Vx__Vy", 0x8005, 0xF00F⟩, by decide, rfl, (mask_op_n _).trans (by rw [encode, fieldOp_formatR, fieldN_formatR]; rfl)⟩

theorem shr (x y : Nibble) : Statement (.shr x y) :=
  ⟨rfl, ⟨"SHR_Vx", 0x8006, 0xF00F⟩, by decide, rfl, (mask_op_n _).trans (by rw [encode, fieldOp_formatR, fieldN_formatR]; rfl)⟩

theorem subnReg (x y : Nibble) : Statement (.subnReg x y) :=
  ⟨rfl, ⟨"SUBN_Vx__Vy", 0x8007, 0xF00F⟩, by decide, rfl, (mask_op_n _).trans (by rw [encode, fieldOp_formatR, fieldN_formatR]; rfl)⟩

theorem shl (x y : Nibble) : Statement (.shl x y) :=
  ⟨rfl, ⟨"SHL_Vx", 0x800E, 0xF00F⟩, by decide, rfl, (mask_op_n _).trans (by rw [encode, fieldOp_formatR, fieldN_formatR]; rfl)⟩

theorem sneReg (x y : Nibble) : Statement (.sneReg x y) :=
  ⟨rfl, ⟨"SNE_Vx__Vy", 0x9000, 0xF00F⟩, by decide, rfl, (mask_op_n _).trans (by rw [encode, fieldOp_formatR, fieldN_formatR]; rfl)⟩

theorem ldI (nnn : Addr) : Statement (.ldI nnn) :=
  ⟨rfl, ⟨"LD_I__nnn", 0xA000, 0xF000⟩, by decide, rfl, (mask_op _).trans (by rw [encode, fieldOp_formatA]; rfl)⟩

theorem jpV0 (nnn : Addr) : Statement (.jpV0 nnn) :=
  ⟨rfl, ⟨"JP_V0__nnn", 0xB000, 0xF000⟩, by decide, rfl, (mask_op _).trans (by rw [encode, fieldOp_formatA]; rfl)⟩

theorem rnd (x : Nibble) (kk : Byte) : Statement (.rnd x kk) :=
  ⟨rfl, ⟨"RND_Vx__kk", 0xC000, 0xF000⟩, by decide, rfl, (mask_op _).trans (by rw [encode, fieldOp_formatI]; rfl)⟩

theorem drw (x y n : Nibble) : Statement (.drw x y n) :=
  ⟨rfl, ⟨"DRW_Vx__Vy__n", 0xD000, 0xF000⟩, by decide, rfl, (mask_op _).trans (by rw [encode, fieldOp_formatR]; rfl)⟩

theorem skp (x : Nibble) : Statement (.skp x) :=
  ⟨rfl, ⟨"SKP_Vx", 0xE09E, 0xF0FF⟩, by decide, rfl, (mask_op_kk _).trans (by rw [encode, fieldOp_formatI, fieldKk_formatI]; rfl)⟩

theorem sknp (x : Nibble) : Statement (.sknp x) :=
  ⟨rfl, ⟨"SKNP_Vx", 0xE0A1, 0xF0FF⟩, by decide, rfl, (mask_op_kk _).trans (by rw [encode, fieldOp_formatI, fieldKk_formatI]; rfl)⟩

theorem ldVxDt (x : Nibble) : Statement (.ldVxDt x) :=
  ⟨rfl, ⟨"LD_Vx__DT", 0xF007, 0xF0FF⟩, by decide, rfl, (mask_op_kk _).trans (by rw [encode, fieldOp_formatI, fieldKk_formatI]; rfl)⟩

theorem ldVxK (x : Nibble) : Statement (.ldVxK x) :=
  ⟨rfl, ⟨"LD_Vx__K", 0xF00A, 0xF0FF⟩, by decide, rfl, (mask_op_kk _).trans (by rw [encode, fieldOp_formatI, fieldKk_formatI]; rfl)⟩

theorem ldDtVx (x : Nibble) : Statement (.ldDtVx x) :=
  ⟨rfl, ⟨"LD_DT__Vx", 0xF015, 0xF0FF⟩, by decide, rfl, (mask_op_kk _).trans (by rw [encode, fieldOp_formatI, fieldKk_formatI]; rfl)⟩

theorem ldStVx (x : Nibble) : Statement (.ldStVx x) :=
  ⟨rfl, ⟨"LD_ST__Vx", 0xF018, 0xF0FF⟩, by decide, rfl, (mask_op_kk _).trans (by rw [encode, fieldOp_formatI, fieldKk_formatI]; rfl)⟩

theorem addI (x : Nibble) : Statement (.addI x) :=
  ⟨rfl, ⟨"ADD_I__Vx", 0xF01E, 0xF0FF⟩, by decide, rfl, (mask_op_kk _).trans (by rw [encode, fieldOp_formatI, fieldKk_formatI]; rfl)⟩

theorem ldF (x : Nibble) : Statement (.ldF x) :=
  ⟨rfl, ⟨"LD_F__Vx", 0xF029, 0xF0FF⟩, by decide, rfl, (mask_op_kk _).trans (by rw [encode, fieldOp_formatI, fieldKk_formatI]; rfl)⟩

theorem ldB (x : Nibble) : Statement (.ldB x) :=
  ⟨rfl, ⟨"LD_B__Vx", 0xF033, 0xF0FF⟩, by decide, rfl, (mask_op_kk _).trans (by rw [encode, fieldOp_formatI, fieldKk_formatI]; rfl)⟩

theorem storeRegs (x : Nibble) : Statement (.storeRegs x) :=
  ⟨rfl, ⟨"LD__I___Vx", 0xF055, 0xF0FF⟩, by decide, rfl, (mask_op_kk _).trans (by rw [encode, fieldOp_formatI, fieldKk_formatI]; rfl)⟩

theorem loadRegs (x : Nibble) : Statement (.loadRegs x) :=
  ⟨rfl, ⟨"LD_Vx___I", 0xF065, 0xF0FF⟩, by decide, rfl, (mask_op_kk _).trans (by rw [encode, fieldOp_formatI, fieldKk_formatI]; rfl)⟩

end Sys2Proof.Laws.RowMatch
end

