-- ==== Sys2Proof/Laws/Step.lean ====
section
/-!
SUPPORT. What one step can do, said once (spec 20_memory.md R50, R51; 40_control_transfer.md R80): later proofs take a
step apart with these and do not unfold it.
-/

namespace Sys2Proof.Machine

/-! ### The event -/

/-- A step consumes the next event and performs it (R51). -/
theorem step_eq (s : State) : step s = (s.setAgenda s.agenda.tail).perform s.upcoming := by
  unfold step State.nextEvent State.upcoming
  rcases hs : s.agenda with _ | ⟨e, rest⟩
  · have : s.setAgenda [] = s := by rw [← hs]; rfl
    simp [this]
  · simp

/-- A step that runs a cycle (R80). -/
theorem step_of_cycles {s : State} (h : s.cycles) : step s = (s.setAgenda s.agenda.tail).runCycle := by
  rw [step_eq, h.1]
  simp [State.perform, State.execTick, h.2]

/-- Everything a step can do: run a cycle, let an execution tick pass, or perform another agent's event. -/
theorem step_cases (s : State) :
    (s.cycles ∧ step s = (s.setAgenda s.agenda.tail).runCycle) ∨
    (s.upcoming = .execTick ∧ s.executor ≠ .running ∧ step s = .next (s.setAgenda s.agenda.tail)) ∨
    (s.upcoming = .timerTick ∧ step s = .next (s.setAgenda s.agenda.tail).timerTick) ∨
    (∃ k, s.upcoming = .press k ∧ step s = .next ((s.setAgenda s.agenda.tail).press k)) ∨
    (s.upcoming = .release ∧ step s = .next (s.setAgenda s.agenda.tail).release) := by
  rcases hu : s.upcoming with _ | _ | k | _
  · by_cases hr : s.executor = .running
    · exact .inl ⟨⟨hu, hr⟩, step_of_cycles ⟨hu, hr⟩⟩
    · refine .inr (.inl ⟨rfl, hr, ?_⟩)
      rw [step_eq, hu]
      cases he : s.executor <;> simp_all [State.perform, State.execTick]
  · exact .inr (.inr (.inl ⟨rfl, by rw [step_eq, hu]; rfl⟩))
  · exact .inr (.inr (.inr (.inl ⟨k, rfl, by rw [step_eq, hu]; rfl⟩)))
  · exact .inr (.inr (.inr (.inr ⟨rfl, by rw [step_eq, hu]; rfl⟩)))

/-- Everything a cycle can do (R80): the fetch faults, the word does not decode, or the instruction executes. -/
theorem State.runCycle_cases (s : State) :
    (s.pc = 0xFFF ∧ s.runCycle = .next s.fetchFault) ∨
    (s.pc ≠ 0xFFF ∧ decodeWord s.fetchWord = .unmatched s.fetchWord ∧
      s.runCycle = .next (s.unknownOpcode s.fetchWord)) ∨
    (s.pc ≠ 0xFFF ∧ ∃ i, decodeWord s.fetchWord = .instr i ∧ s.runCycle = exec i s.advance) := by
  by_cases hp : s.pc = 0xFFF
  · exact .inl ⟨hp, by rw [State.runCycle, if_pos hp]⟩
  · rcases hd : decodeWord s.fetchWord with i | w
    · exact .inr (.inr ⟨hp, i, rfl, by rw [State.runCycle, if_neg hp, hd]⟩)
    · have hw := decodeWord_unmatched hd
      subst hw
      exact .inr (.inl ⟨hp, rfl, by rw [State.runCycle, if_neg hp, hd]⟩)

/-- A run of the machine whose first step answers a next state goes on from there. -/
theorem core_run_next (k : Nat) {s t : State} (h : step s = .next t) :
    Host.Core.run Sys2Proof.core (k + 1) s = Host.Core.run Sys2Proof.core k t := by
  have general : ∀ (M : Host.Core) (s t : M.State), M.step s = .next t → M.run (k + 1) s = M.run k t := by
    intro M s t h
    rw [Host.Core.run.eq_def]
    simp only [h]
  exact general Sys2Proof.core s t h

/-! ### The other agents -/

/-- The two things a press can do (R181, R182). -/
theorem State.press_cases (s : State) (k : Nibble) :
    (s.executor = .waitingForKey ∧ s.press k = (s.keyDown k).endKeyWait k) ∨
    (s.executor ≠ .waitingForKey ∧ s.press k = s.keyDown k) := by
  unfold State.press
  cases s.executor
  · exact .inr ⟨by decide, rfl⟩
  · exact .inl ⟨rfl, rfl⟩
  · exact .inr ⟨by decide, rfl⟩

/-- The count is clamped at 0 (R177). -/
@[simp] theorem countDown_toNat (b : Byte) : (countDown b).toNat = b.toNat - 1 := by
  have := b.isLt
  unfold countDown
  split
  · next h => subst h; rfl
  · next h =>
    have : b.toNat ≠ 0 := fun e => h (BitVec.eq_of_toNat_eq e)
    simp only [BitVec.toNat_sub]
    simp
    omega

/-- The tone sounds exactly while the sound timer is not 0 (R179). -/
theorem State.toneActive_iff (s : State) : s.toneActive = true ↔ s.st ≠ 0 := by
  rw [State.toneActive, decide_eq_true_iff, Nat.pos_iff_ne_zero]
  exact not_congr (BitVec.toNat_eq (x := s.st) (y := 0)).symm

/-! ### The execute phase -/

/-- The end of every instruction: it halts, recording itself, or it leaves the executor alone or parks it. -/
theorem exec_ends (i : Instr) (s : State) :
    (∃ c a, exec i s = .next (s.halt c (encode i) a)) ∨
    ∃ t, exec i s = .next t ∧ t.agenda = s.agenda ∧ t.haltCause = s.haltCause ∧ t.haltWord = s.haltWord ∧
      t.haltAddr = s.haltAddr ∧ (t.executor = s.executor ∨ t.executor = .waitingForKey) ∧
      (t.emitted = s.emitted ∨ t.emitted = .dispChanged :: s.emitted) := by
  have guarded : ∀ (len : Nat) (done : State), exec i s = .next (s.guardAccess i len done) →
      done.agenda = s.agenda → done.haltCause = s.haltCause →
      done.haltWord = s.haltWord → done.haltAddr = s.haltAddr → done.executor = s.executor →
      (done.emitted = s.emitted ∨ done.emitted = .dispChanged :: s.emitted) →
      (∃ c a, exec i s = .next (s.halt c (encode i) a)) ∨
      ∃ t, exec i s = .next t ∧ t.agenda = s.agenda ∧ t.haltCause = s.haltCause ∧ t.haltWord = s.haltWord ∧
        t.haltAddr = s.haltAddr ∧ (t.executor = s.executor ∨ t.executor = .waitingForKey) ∧
        (t.emitted = s.emitted ∨ t.emitted = .dispChanged :: s.emitted) := by
    intro len done he h1 h2 h3 h4 h5 h6
    rcases s.guardAccess_cases i len done with ⟨_, hg⟩ | ⟨_, hg⟩
    · exact .inr ⟨done, hg ▸ he, h1, h2, h3, h4, .inl h5, h6⟩
    · exact .inl ⟨_, _, hg ▸ he⟩
  cases i with
  | call nnn =>
    by_cases h : s.sp = 15
    · exact .inl ⟨_, _, if_pos h⟩
    · exact .inr ⟨_, if_neg h, rfl, rfl, rfl, rfl, .inl rfl, .inl rfl⟩
  | ret =>
    by_cases h : s.sp = 0
    · exact .inl ⟨_, _, if_pos h⟩
    · exact .inr ⟨_, if_neg h, rfl, rfl, rfl, rfl, .inl rfl, .inl rfl⟩
  | drw x y n => exact guarded n.toNat _ rfl rfl rfl rfl rfl rfl (.inr rfl)
  | ldB x => exact guarded 3 _ rfl rfl rfl rfl rfl rfl (.inl rfl)
  | storeRegs x => exact guarded (regCount x) _ rfl rfl rfl rfl rfl rfl (.inl rfl)
  | loadRegs x => exact guarded (regCount x) _ rfl rfl rfl rfl rfl rfl (.inl rfl)
  | cls => exact .inr ⟨_, rfl, rfl, rfl, rfl, rfl, .inl rfl, .inr rfl⟩
  | ldVxK x => exact .inr ⟨_, rfl, rfl, rfl, rfl, rfl, .inr rfl, .inl rfl⟩
  | seImm | sneImm | seReg | sneReg | skp | sknp =>
    refine .inr ⟨_, rfl, ?_⟩
    rw [State.skipIf_eq]
    exact ⟨rfl, rfl, rfl, rfl, .inl rfl, .inl rfl⟩
  | jp | ldImm | addImm | ldReg | orReg | andReg | xorReg | addReg | subReg | shr | subnReg | shl | ldI | jpV0 | rnd
  | ldVxDt | ldDtVx | ldStVx | addI | ldF => exact .inr ⟨_, rfl, rfl, rfl, rfl, rfl, .inl rfl, .inl rfl⟩

end Sys2Proof.Machine
end

