-- ==== Sys2Proof/Tests/Slice0.lean ====
section
/-!
SUPPORT. Tests: ill-formed images, words written out from the spec's encodings, one-step tests with results from
spec/95_test_vectors.md (T and S numbers), and for each statement with hypotheses the states that meet them.
-/

namespace Sys2Proof.Tests

open Sys2Proof.Machine

/-! ### Well-formedness (70 R202: T160 to T163) -/

theorem test_image_absent_refused : Image.wellFormed none = false := by decide
theorem test_image_empty_refused : Image.wellFormed (some []) = false := by decide
theorem test_image_too_long_refused : Image.wellFormed (some (List.replicate 0xE01 0xAA)) = false := by
  simp only [Image.wellFormed, Image.present, Image.nonEmpty, Image.fits, Option.getD_some, List.length_replicate]
  decide
theorem test_image_longest_accepted : Image.wellFormed (some (List.replicate 0xE00 0xAA)) = true := by
  simp only [Image.wellFormed, Image.present, Image.nonEmpty, Image.fits, Option.getD_some, List.length_replicate]
  decide
theorem test_image_one_byte_accepted : Image.wellFormed (some [0x12]) = true := by decide

/-! ### Decoding: each constructor's word, written out bit by bit from the spec's patterns (30 R65 to R69) -/

theorem test_decode_cls : decodeWord 0b0000000011100000 = .instr .cls := by decide
theorem test_decode_ret : decodeWord 0b0000000011101110 = .instr .ret := by decide
theorem test_decode_jp : decodeWord 0b0001101010111100 = .instr (.jp 0xABC) := by decide
theorem test_decode_call : decodeWord 0b0010001100000000 = .instr (.call 0x300) := by decide
theorem test_decode_seImm : decodeWord 0b0011000101000010 = .instr (.seImm 1 0x42) := by decide
theorem test_decode_sneImm : decodeWord 0b0100000101000010 = .instr (.sneImm 1 0x42) := by decide
theorem test_decode_seReg : decodeWord 0b0101000100100000 = .instr (.seReg 1 2) := by decide
theorem test_decode_ldImm : decodeWord 0b0110101000000010 = .instr (.ldImm 0xA 0x02) := by decide
theorem test_decode_addImm : decodeWord 0b0111000111111111 = .instr (.addImm 1 0xFF) := by decide
theorem test_decode_ldReg : decodeWord 0b1000000100100000 = .instr (.ldReg 1 2) := by decide
theorem test_decode_orReg : decodeWord 0b1000111100010001 = .instr (.orReg 0xF 1) := by decide
theorem test_decode_andReg : decodeWord 0b1000000100100010 = .instr (.andReg 1 2) := by decide
theorem test_decode_xorReg : decodeWord 0b1000000100100011 = .instr (.xorReg 1 2) := by decide
theorem test_decode_addReg : decodeWord 0b1000111100010100 = .instr (.addReg 0xF 1) := by decide
theorem test_decode_subReg : decodeWord 0b1000000111110101 = .instr (.subReg 1 0xF) := by decide
theorem test_decode_shr : decodeWord 0b1000000100100110 = .instr (.shr 1 2) := by decide
theorem test_decode_subnReg : decodeWord 0b1000000111110111 = .instr (.subnReg 1 0xF) := by decide
theorem test_decode_shl : decodeWord 0b1000111100001110 = .instr (.shl 0xF 0) := by decide
theorem test_decode_sneReg : decodeWord 0b1001000100100000 = .instr (.sneReg 1 2) := by decide
theorem test_decode_ldI : decodeWord 0b1010001100000000 = .instr (.ldI 0x300) := by decide
theorem test_decode_jpV0 : decodeWord 0b1011111110000000 = .instr (.jpV0 0xF80) := by decide
theorem test_decode_rnd : decodeWord 0b1100000100001111 = .instr (.rnd 1 0x0F) := by decide
theorem test_decode_drw : decodeWord 0b1101000000010101 = .instr (.drw 0 1 5) := by decide
theorem test_decode_skp : decodeWord 0b1110000110011110 = .instr (.skp 1) := by decide
theorem test_decode_sknp : decodeWord 0b1110000110100001 = .instr (.sknp 1) := by decide
theorem test_decode_ldVxDt : decodeWord 0b1111010000000111 = .instr (.ldVxDt 4) := by decide
theorem test_decode_ldVxK : decodeWord 0b1111001100001010 = .instr (.ldVxK 3) := by decide
theorem test_decode_ldDtVx : decodeWord 0b1111001100010101 = .instr (.ldDtVx 3) := by decide
theorem test_decode_ldStVx : decodeWord 0b1111010100011000 = .instr (.ldStVx 5) := by decide
theorem test_decode_addI : decodeWord 0b1111000100011110 = .instr (.addI 1) := by decide
theorem test_decode_ldF : decodeWord 0b1111000100101001 = .instr (.ldF 1) := by decide
theorem test_decode_ldB : decodeWord 0b1111000100110011 = .instr (.ldB 1) := by decide
theorem test_decode_storeRegs : decodeWord 0b1111001001010101 = .instr (.storeRegs 2) := by decide
theorem test_decode_loadRegs : decodeWord 0b1111000101100101 = .instr (.loadRegs 1) := by decide

/-- The unmatched words T30 to T37 (30 R70). -/
theorem test_decode_unmatched :
    [0x0000, 0x00E1, 0x0123, 0x5121, 0x9121, 0x8128, 0xE100, 0xF0FF].all
      (fun w => decodeWord w == .unmatched w) = true := by decide

/-- Big-endian (30 R60): the bytes 12 04 are the word 0x1204; the bytes after them are handed back. -/
theorem test_decode_bytes : decodeBytes [0x12, 0x04, 0xAA] = some (.instr (.jp 0x204), [0xAA]) := by decide
theorem test_decode_table_word : decodeTableWord 16 0xF365 = some (.loadRegs 3) := by decide
theorem test_decode_table_word_refused : decodeTableWord 16 0x8128 = none := by decide

/-! ### One-step tests -/

/-- The reset state with the word at 0x200. -/
def at200 (w : InsnWord) : State :=
  { State.reset with mem := Memory.writeBytes State.reset.mem 0x200 (bytesOfWord w) }

/-- The same with two more bytes in memory. -/
def withBytes (s : State) (a : Nat) (bs : List Byte) : State := { s with mem := Memory.writeBytes s.mem a bs }

/-- What `f` gives of the state after one step. -/
def after {α : Type} (s : State) (f : State → α) : Option α :=
  match step s with
  | .next t => some (f t)
  | .fault _ => none
  | .refused _ => none

/-- The halt record and pc. -/
structure HaltView where
  executor : ExecState
  cause : BitVec 3
  word : InsnWord
  addr : BitVec 13
  pc : Addr
  deriving DecidableEq, Repr

/-- The halt record and pc of a state. -/
def haltView (s : State) : HaltView := ⟨s.executor, s.haltCause, s.haltWord, s.haltAddr, s.pc⟩

/-- A row of the display: bit cx is the pixel in column cx. -/
def rowView (s : State) (cy : Fin 32) : BitVec 64 := s.pix[cy]

/-- T1. -/
theorem test_jp : after (at200 0x1ABC) (·.pc) = some 0xABC := by decide
/-- T4. -/
theorem test_call : after (at200 0x2300) (fun t => (t.sp, t.top, t.pc)) = some (1, 0x202, 0x300) := by decide
/-- T8. -/
theorem test_call_overflow : after { at200 0x2300 with sp := 15 } haltView =
    some ⟨.halted, 2, 0x2300, 0x200, 0x202⟩ := by decide
/-- T6. -/
theorem test_ret : after { (at200 0x00EE).push 0x206 with pc := 0x200 } (fun t => (t.pc, t.sp)) =
    some (0x206, 0) := by decide
/-- T7. -/
theorem test_ret_underflow : after (at200 0x00EE) haltView = some ⟨.halted, 3, 0x00EE, 0x200, 0x202⟩ := by decide
/-- T9. -/
theorem test_seImm_skips : after ((at200 0x3142).setReg 1 0x42) (·.pc) = some 0x204 := by decide
/-- T10. -/
theorem test_seImm_stays : after ((at200 0x3142).setReg 1 0x43) (·.pc) = some 0x202 := by decide
/-- T11. -/
theorem test_sneImm_stays : after ((at200 0x4142).setReg 1 0x42) (·.pc) = some 0x202 := by decide
/-- T12. -/
theorem test_sneImm_skips : after ((at200 0x4142).setReg 1 0x43) (·.pc) = some 0x204 := by decide
/-- T14. -/
theorem test_seReg_stays : after (((at200 0x5120).setReg 1 7).setReg 2 8) (·.pc) = some 0x202 := by decide
/-- T15. -/
theorem test_seReg_same_register : after ((at200 0x5330).setReg 3 9) (·.pc) = some 0x204 := by decide
/-- T16. -/
theorem test_sneReg_stays : after (((at200 0x9120).setReg 1 7).setReg 2 7) (·.pc) = some 0x202 := by decide
/-- T17. -/
theorem test_sneReg_skips : after (((at200 0x9120).setReg 1 7).setReg 2 8) (·.pc) = some 0x204 := by decide
/-- T20. -/
theorem test_jpV0_wraps : after ((at200 0xBF80).setReg 0 0xFF) (·.pc) = some 0x07F := by decide
/-- T21. -/
theorem test_skip_wraps : after { withBytes State.reset 0xFFC [0x30, 0x00] with pc := 0xFFC } (·.pc) = some 0x000 := by
  decide
/-- T22. -/
theorem test_fetch_wraps : after { withBytes State.reset 0xFFE [0x30, 0x00] with pc := 0xFFE } (·.pc) = some 0x002 := by
  decide
/-- T24. -/
theorem test_fetch_fault : after { State.reset with pc := 0xFFF } haltView =
    some ⟨.halted, 4, 0x0000, 0x1000, 0xFFF⟩ := by decide
/-- T37, with its report. -/
theorem test_unknown_opcode : after (at200 0xF0FF) (fun t => (haltView t, t.emitted)) =
    some (⟨.halted, 1, 0xF0FF, 0x200, 0x202⟩, [.diag 1 0xF0FF 0x200]) := by decide
/-- T40. -/
theorem test_ldImm : after (at200 0x6A02) (·.getReg 0xA) = some 0x02 := by decide
/-- T41. -/
theorem test_addImm_wraps : after ((at200 0x71FF).setReg 1 1) (fun t => (t.getReg 1, t.getReg 0xF)) = some (0, 0) := by
  decide
/-- T42. -/
theorem test_addImm_vf : after ((at200 0x7F01).setReg 0xF 0xFF) (·.getReg 0xF) = some 0 := by decide
/-- T43. -/
theorem test_ldReg : after ((at200 0x8120).setReg 2 0x5A) (·.getReg 1) = some 0x5A := by decide
/-- T48. -/
theorem test_orReg : after (((at200 0x8F11).setReg 0xF 0x0F).setReg 1 0xF0) (·.getReg 0xF) = some 0xFF := by decide
/-- T45. -/
theorem test_andReg : after (((at200 0x8122).setReg 1 0xF3).setReg 2 0x3F) (·.getReg 1) = some 0x33 := by decide
/-- T46. -/
theorem test_xorReg : after (((at200 0x8123).setReg 1 0xFF).setReg 2 0x0F) (·.getReg 1) = some 0xF0 := by decide
/-- T52. -/
theorem test_addReg : after (((at200 0x8124).setReg 1 0xC8).setReg 2 0x64) (fun t => (t.getReg 1, t.getReg 0xF)) =
    some (0x2C, 1) := by decide
/-- T54. -/
theorem test_addReg_into_vf : after (((at200 0x8F14).setReg 0xF 0xF0).setReg 1 0x20) (·.getReg 0xF) = some 0x10 := by
  decide
/-- T59. -/
theorem test_subReg_equal : after (((at200 0x8125).setReg 1 7).setReg 2 7) (fun t => (t.getReg 1, t.getReg 0xF)) =
    some (0, 0) := by decide
/-- T60. -/
theorem test_subReg_from_vf : after (((at200 0x81F5).setReg 1 5).setReg 0xF 3) (fun t => (t.getReg 1, t.getReg 0xF)) =
    some (4, 1) := by decide
/-- T63. -/
theorem test_subnReg : after (((at200 0x8127).setReg 1 3).setReg 2 5) (fun t => (t.getReg 1, t.getReg 0xF)) =
    some (2, 1) := by decide
/-- T66. -/
theorem test_subnReg_from_vf : after (((at200 0x81F7).setReg 1 3).setReg 0xF 5) (fun t => (t.getReg 1, t.getReg 0xF)) =
    some (0xFE, 1) := by decide
/-- T72. -/
theorem test_shr_ignores_y : after (((at200 0x8126).setReg 1 5).setReg 2 0xF0)
    (fun t => (t.getReg 1, t.getReg 2, t.getReg 0xF)) = some (2, 0xF0, 1) := by decide
/-- T73. -/
theorem test_shr_vf : after ((at200 0x8F06).setReg 0xF 0xFF) (·.getReg 0xF) = some 0 := by decide
/-- T76. -/
theorem test_shl : after ((at200 0x810E).setReg 1 0xFF) (fun t => (t.getReg 1, t.getReg 0xF)) = some (0xFE, 1) := by
  decide
/-- T78. -/
theorem test_shl_vf : after ((at200 0x8F0E).setReg 0xF 0xFF) (·.getReg 0xF) = some 2 := by decide
/-- T80 to T82, for whatever byte the oracle gives. -/
theorem test_rnd : after (at200 0xC10F) (fun t => (t.getReg 1, t.draws)) = some (Config.rnd8 0 &&& 0x0F, 1) := by rfl
/-- T90. -/
theorem test_ldI : after (at200 0xA300) (·.idx) = some 0x300 := by decide
/-- T92. -/
theorem test_addI_wraps : after ((({ at200 0xF11E with idx := 0xF80 } : State)).setReg 1 0xFF)
    (fun t => (t.idx, t.getReg 0xF)) = some (0x07F, 0) := by decide
/-- T95. -/
theorem test_ldF_whole_byte : after ((at200 0xF129).setReg 1 0xFF) (·.idx) = some 0x4FB := by decide
/-- T97. -/
theorem test_ldB : after ((({ at200 0xF133 with idx := 0xFFD } : State)).setReg 1 0x9C)
    (fun t => t.mem.readBytes 0xFFD 3) = some [1, 5, 6] := by decide
/-- T98. -/
theorem test_ldB_fault : after ((({ at200 0xF133 with idx := 0xFFE } : State)).setReg 1 0x9C)
    (fun t => (haltView t, t.mem.readBytes 0xFFE 2)) = some (⟨.halted, 4, 0xF133, 0x1000, 0x202⟩, [0, 0]) := by decide
/-- T99. -/
theorem test_storeRegs : after (((((({ at200 0xF255 with idx := 0x400 } : State)).setReg 0 0x11).setReg 1 0x22).setReg
    2 0x33).setReg 3 0x44) (fun t => (t.mem.readBytes 0x400 4, t.idx)) = some ([0x11, 0x22, 0x33, 0], 0x400) := by decide
/-- T103. -/
theorem test_storeRegs_fault : after ((({ at200 0xF155 with idx := 0xFFF } : State)).setReg 0 0x77)
    (fun t => (haltView t, t.mem.read 0xFFF)) = some (⟨.halted, 4, 0xF155, 0x1000, 0x202⟩, 0) := by decide
/-- T104. -/
theorem test_loadRegs : after ((at200 0xF165).setReg 2 0x99) (fun t => (t.getReg 0, t.getReg 1, t.getReg 2)) =
    some (0xF0, 0x90, 0x99) := by decide
/-- T106. -/
theorem test_loadRegs_fault : after ((({ at200 0xFF65 with idx := 0xFFF } : State)).setReg 0 0x55)
    (fun t => (haltView t, t.getReg 0)) = some (⟨.halted, 4, 0xFF65, 0x100E, 0x202⟩, 0x55) := by decide
/-- T110. -/
theorem test_cls : after { at200 0x00E0 with pix := (Grid.blank.set 0 1).set 31 (1 <<< 63) }
    (fun t => (t.pix, t.emitted)) = some (Grid.blank, [.dispChanged]) := by decide
/-- T112. -/
theorem test_drw_wraps : after ((withBytes { at200 0xD011 with idx := 0x300 } 0x300 [0xFF]).setReg 0 0x3F)
    (fun t => (rowView t 0, t.getReg 0xF, t.emitted)) = some (0x800000000000007F, 0, [.dispChanged]) := by decide
/-- T114: pixels 1 and 2 on before, 0 and 2 after. -/
theorem test_drw_collision :
    after (withBytes { at200 0xD011 with idx := 0x300, pix := Grid.blank.set 0 0b110 } 0x300 [0xC0])
      (fun t => (rowView t 0, t.getReg 0xF)) = some (0b101, 1) := by decide
/-- T133. -/
theorem test_skp_full_byte : after (({ at200 0xE19E with keyValid := true, key := 5 } : State).setReg 1 0x15) (·.pc) =
    some 0x202 := by decide
/-- T130. -/
theorem test_skp_skips : after (({ at200 0xE19E with keyValid := true, key := 5 } : State).setReg 1 0x05) (·.pc) =
    some 0x204 := by decide
/-- T134. -/
theorem test_sknp_no_key : after ((at200 0xE1A1).setReg 1 0x05) (·.pc) = some 0x204 := by decide
/-- T135. -/
theorem test_sknp_stays : after (({ at200 0xE1A1 with keyValid := true, key := 5 } : State).setReg 1 0x05) (·.pc) =
    some 0x202 := by decide
/-- T145. -/
theorem test_ldVxDt : after { at200 0xF407 with dt := 7 } (fun t => (t.getReg 4, t.dt)) = some (7, 7) := by decide
/-- T144. -/
theorem test_ldVxK : after { at200 0xF30A with keyValid := true, key := 4 }
    (fun t => (t.executor, t.waitX, t.pc, t.getReg 3)) = some (.waitingForKey, 3, 0x202, 0) := by decide
/-- T146. -/
theorem test_ldDtVx : after ((at200 0xF315).setReg 3 9) (·.dt) = some 9 := by decide
/-- T147. -/
theorem test_ldStVx : after ((at200 0xF518).setReg 5 2) (fun t => (t.st, t.toneActive)) = some (2, true) := by decide
/-- T139. -/
theorem test_press_ends_wait : after { State.reset with executor := .waitingForKey, waitX := 3, agenda := [.press 9] }
    (fun t => (t.keyValid, t.key, t.getReg 3, t.executor, t.pc)) = some (true, 9, 9, .running, 0x200) := by decide
/-- T142. -/
theorem test_release :
    after { State.reset with executor := .waitingForKey, keyValid := true, key := 4, agenda := [.release] }
      (fun t => (t.keyValid, t.executor)) = some (false, .waitingForKey) := by decide
/-- T150. -/
theorem test_timer_tick : after { State.reset with executor := .halted, dt := 5, agenda := [.timerTick] }
    (fun t => (t.dt, t.st)) = some (4, 0) := by decide
/-- T149. -/
theorem test_tone_falls : after { State.reset with st := 1, agenda := [.timerTick] } (fun t => (t.st, t.toneActive)) =
    some (0, false) := by decide
/-- The host's placing of a word runs it, also from the one pc nothing can be fetched at. -/
theorem test_withFetchWord : after ({ State.reset with pc := 0xFFF }.withFetchWord 16 0x6A02)
    (fun t => (t.getReg 0xA, t.pc)) = some (2, 0x202) := by decide

/-! ### Witnesses: the hypotheses of each statement of Certificates/Slice0/Obligations.lean, met at concrete values, one
for each clause and at the ends of its range -/

/-- DecodeEncodeRoundTrip. -/
theorem witness_wellFormed : (Instr.drw 0xF 0xF 0xF).wellFormed = true := rfl
/-- EncodeDecodeRoundTrip. -/
theorem witness_decodes : decodeWord 0xFF65 = .instr (.loadRegs 0xF) := by decide
/-- OpcodeMapSelectsInstruction: a row, a word that selects it and one that does not. -/
theorem witness_row : (⟨"SKP_Vx", 0xE09E, 0xF0FF⟩ : MapRow) ∈ opcodeMap ∧ (0xEF9E#16 &&& 0xF0FF) = 0xE09E ∧
    (0xEF9F#16 &&& 0xF0FF) ≠ 0xE09E := by decide
/-- UnmatchedWordsCharacterised: a word of each family, and the neighbours that do decode. -/
theorem witness_unmatched :
    [0x00EF, 0x0FFF, 0x5001, 0x9FFF, 0x8008, 0x800D, 0x800F, 0xE09D, 0xE0A2, 0xF006, 0xFF66].all
      (fun w => decodeWord w == .unmatched w) = true ∧
    [0x00EE, 0x5FF0, 0x9000, 0x8007, 0x800E, 0xE09E, 0xE0A1, 0xF007, 0xFF65].all
      (fun w => decodeWord w != .unmatched w) = true := by decide

/-- StepRunsDecodedInstruction, at 0x200 and at the last address a word can be fetched from. -/
theorem witness_step_runs :
    ((at200 0x1ABC).cycles ∧ (at200 0x1ABC).pc ≠ 0xFFF ∧
      decodeBytes ((at200 0x1ABC).mem.readBytes 0x200 2) = some (.instr (.jp 0xABC), [])) ∧
    ∃ s : State, s.cycles ∧ s.pc = 0xFFE ∧ decodeBytes (s.mem.readBytes s.pc.toNat 2) = some (.instr (.ldImm 1 0x55), []) :=
  ⟨⟨⟨rfl, rfl⟩, by decide, by decide⟩,
    { withBytes State.reset 0xFFE [0x61, 0x55] with pc := 0xFFE }, ⟨rfl, rfl⟩, rfl, by decide⟩

/-- FaultingCycleHaltsPrecisely: the fetch fault and the unknown opcode, there also with a pc that wraps. -/
theorem witness_fault_fetch_decode :
    ({ State.reset with pc := 0xFFF } : State).cycleFault = some ⟨.addressFault, 0x0000, 0x1000, 0xFFF⟩ ∧
    ({ State.reset with pc := 0xFFE } : State).cycleFault = some ⟨.unknownOpcode, 0x0000, 0xFFE, 0x000⟩ := by decide
/-- FaultingCycleHaltsPrecisely: the two stack faults. -/
theorem witness_fault_stack :
    ({ at200 0x2300 with sp := 15 } : State).cycleFault = some ⟨.stackOverflow, 0x2300, 0x200, 0x202⟩ ∧
    (at200 0x00EE).cycleFault = some ⟨.stackUnderflow, 0x00EE, 0x200, 0x202⟩ := by decide
/-- FaultingCycleHaltsPrecisely: the data accesses at the first address that faults. -/
theorem witness_fault_data :
    ({ at200 0xD012 with idx := 0xFFF } : State).cycleFault = some ⟨.addressFault, 0xD012, 0x1000, 0x202⟩ ∧
    ({ at200 0xF133 with idx := 0xFFE } : State).cycleFault = some ⟨.addressFault, 0xF133, 0x1000, 0x202⟩ ∧
    ({ at200 0xFF55 with idx := 0xFF1 } : State).cycleFault = some ⟨.addressFault, 0xFF55, 0x1000, 0x202⟩ ∧
    ({ at200 0xFF65 with idx := 0xFFF } : State).cycleFault = some ⟨.addressFault, 0xFF65, 0x100E, 0x202⟩ := by decide
/-- The same accesses one address lower do not fault. -/
theorem witness_no_fault :
    ({ at200 0xD012 with idx := 0xFFE } : State).cycleFault = none ∧
    ({ at200 0xF133 with idx := 0xFFD } : State).cycleFault = none ∧
    ({ at200 0xFF55 with idx := 0xFF0 } : State).cycleFault = none ∧
    ({ at200 0xD010 with idx := 0xFFF } : State).cycleFault = none := by decide

/-- TickWithoutRunningChangesNothing, HaltedIsFinal: the two states that are not `Running`. -/
theorem witness_not_running :
    (({ State.reset with executor := .waitingForKey } : State).upcoming = .execTick ∧ ExecState.waitingForKey ≠ .running) ∧
    (({ State.reset with executor := .halted, agenda := [.execTick] } : State).upcoming = .execTick ∧
      ExecState.halted ≠ .running) := by decide
/-- EveryStepKeepsHaltRecord, EveryStepKeepsMemoryForm, StackSlotZeroIsNeverWritten: from reset the first step halts. -/
theorem witness_invariants_running : HaltInv State.reset ∧ MemoryInv State.reset ∧ ∃ t, step State.reset = .next t :=
  ⟨⟨rfl, rfl, rfl, rfl⟩, rfl, _, rfl⟩
/-- EveryStepKeepsHaltRecord from `WaitingForKey`, where a press ends the wait. -/
theorem witness_halt_record_waiting :
    ∃ s t : State, s.executor = .waitingForKey ∧ s.agenda = [.press 9] ∧ HaltInv s ∧ step s = .next t :=
  ⟨{ State.reset with executor := .waitingForKey, agenda := [.press 9] }, _, rfl, rfl, ⟨rfl, rfl, rfl, rfl⟩, rfl⟩
/-- EveryStepKeepsHaltRecord from `Halted`. -/
theorem witness_halt_record_halted : ∃ s t : State, s.executor = .halted ∧ HaltInv s ∧ step s = .next t :=
  ⟨State.reset.halt .stackUnderflow 0x00EE 0x200, _, rfl, ⟨⟨.stackUnderflow, rfl⟩, by decide⟩, rfl⟩
/-- EveryStepKeepsMemoryForm with a store whose last byte is the last of memory. -/
theorem witness_memory_form : ∃ s t : State, s.idx = 0xFFD ∧ MemoryInv s ∧ step s = .next t :=
  ⟨{ at200 0xF133 with idx := 0xFFD }, _, rfl, (by decide : (at200 0xF133).mem.wf = true), rfl⟩

/-- ConstructionLoadsImage: each reason to refuse, and the shortest and longest image that is taken. -/
theorem witness_images :
    ((none : Image) = none ∧ (some [] : Image) = some [] ∧ 0xE00 < (List.replicate 0xE01 (0xAA : Byte)).length) ∧
    1 ≤ [(0x12 : Byte)].length ∧ 1 ≤ (List.replicate 0xE00 (0xAA : Byte)).length ∧
    (List.replicate 0xE00 (0xAA : Byte)).length ≤ 0xE00 := by
  rw [List.length_replicate, List.length_replicate]
  decide
/-- FirstFetchIsImageStart: an image of one byte (T164) and one of two. -/
theorem witness_first_fetch (font : Vector Byte 80) :
    (∃ s, construct font (some [0x12]) = .ok s) ∧ ∃ s, construct font (some [0x6A, 0x02]) = .ok s :=
  ⟨⟨_, rfl⟩, ⟨_, rfl⟩⟩

/-- CallPushesReturnAddress, CallThenReturnRestores, ReturnPopsReturnAddress: the ends of the ranges of sp. -/
theorem witness_stack_pointers : State.reset.sp.toNat < 15 ∧ ({ State.reset with sp := 14 } : State).sp.toNat < 15 ∧
    0 < ({ State.reset with sp := 1 } : State).sp.toNat ∧ 0 < ({ State.reset with sp := 15 } : State).sp.toNat := by decide
/-- StackReachedOnlyByCallAndReturn, DisplayReachedOnlyByClearAndDraw, IndexFrame. -/
theorem witness_other_instructions : (Instr.storeRegs 0xF).usesStack = false ∧ (Instr.cls).usesStack = false ∧
    (Instr.storeRegs 0xF).usesDisplay = false ∧ Instr.ret.usesDisplay = false ∧
    (Instr.loadRegs 0xF).writesIndex = false := by decide
/-- StackSlotZeroIsNeverWritten: calls at the ends of the stack. -/
theorem witness_slot_zero : ∃ s t u v : State, step s = .next t ∧ t.sp = 1 ∧ step { s with sp := 14 } = .next u ∧ u.sp = 15 ∧
    step { s with sp := 15 } = .next v ∧ v.executor = .halted := ⟨at200 0x2300, _, _, _, rfl, rfl, rfl, rfl, rfl, rfl⟩
/-- JumpToSelfIsFixedPoint. -/
theorem witness_jump_to_self : (at200 0x1200).agenda = [] ∧ (at200 0x1200).executor = .running ∧
    (at200 0x1200).pc ≠ 0xFFF ∧ decodeWord (at200 0x1200).fetchWord = .instr (.jp (at200 0x1200).pc) := by decide

/-- AddWithCarry, SubtractAwayFromVF, SubtractNamingVF, ShiftsByOne: the register numbers next to VF. -/
theorem witness_not_vf : (0xE : Nibble) ≠ 0xF ∧ (0x0 : Nibble) ≠ 0xF := by decide
/-- RandomUnderMask: a mask bit that is 0. -/
theorem witness_mask_bit : (0x7F : Byte).getLsbD 7 = false := by decide
/-- RegisterFrame: a register that is no destination, VF where no flag is written, and registers above x. -/
theorem witness_register_frame :
    ((Instr.addReg 1 2).destines 2 = false ∧ (Instr.ldImm 1 0).destines 0xF = false ∧ (Instr.ldImm 1 0).writesFlag = false) ∧
    (Instr.loadRegs 0xE).destines 0xF = false ∧ (Instr.loadRegs 0xE).writesFlag = false ∧
    ∃ t, exec (.loadRegs 0xE) State.reset = .next t := ⟨by decide, by decide, by decide, _, rfl⟩

/-- DecimalDigitsAreStored: the highest I. -/
theorem witness_digits : ∃ s : State, MemoryInv s ∧ s.idx.toNat + 2 = 0xFFF :=
  ⟨{ State.reset with idx := 0xFFD }, rfl, by decide⟩
/-- RegistersAreStored, RegistersAreLoaded, StoreThenLoadGivesBack: the highest I for all registers and for one. -/
theorem witness_registers : ∃ s t : State, MemoryInv s ∧ s.idx.toNat + (0xF : Nibble).toNat = 0xFFF ∧
    MemoryInv t ∧ t.idx.toNat + (0x0 : Nibble).toNat = 0xFFF :=
  ⟨{ State.reset with idx := 0xFF0 }, { State.reset with idx := 0xFFF }, rfl, by decide, rfl, by decide⟩
/-- StoreIsSeenByNextFetch: at 0x202 and at the last address a word can be fetched from. -/
theorem witness_store_next_fetch : ∃ s t : State, (MemoryInv s ∧ s.idx = s.pc ∧ 1 ≤ (1 : Nibble).toNat ∧
      s.idx.toNat + (1 : Nibble).toNat ≤ 0xFFF) ∧ MemoryInv t ∧ t.idx = t.pc ∧ t.idx.toNat + (1 : Nibble).toNat = 0xFFF :=
  ⟨{ State.reset with idx := 0x202, pc := 0x202 }, { State.reset with idx := 0xFFE, pc := 0xFFE },
    ⟨rfl, rfl, by decide, by decide⟩, rfl, rfl, by decide⟩
/-- MemoryFrame: the addresses on both sides of the stored bytes, and any address where nothing is stored. -/
theorem witness_memory_frame : ∃ s t u : State, exec (.ldB 0) s = .next t ∧ 0x2FF < s.idx.toNat ∧
    s.idx.toNat + (Instr.ldB 0).stored ≤ 0x303 ∧ exec .cls s = .next u ∧ s.idx.toNat + Instr.cls.stored ≤ 0x300 :=
  ⟨{ State.reset with idx := 0x300 }, _, _, rfl, by decide, by decide, rfl, by decide⟩
/-- IndexFrame, ControlStateFrame: an instruction that answers a next state and does not fault. -/
theorem witness_frames : (∃ t, exec (.ldB 0) State.reset = .next t) ∧ (Instr.ldB 0).writesIndex = false ∧
    (Instr.ldB 0).faultIn State.reset 0 = none ∧ (Instr.ldVxK 0).faultIn State.reset 0 = none :=
  ⟨⟨_, rfl⟩, by decide, by decide, by decide⟩

/-- The statements on DRW: no rows at the highest I, and 15 rows that end at 0xFFF. -/
theorem witness_sprites : (0 : Nibble).toNat = 0 ∧
    ({ State.reset with idx := 0xFF1 } : State).idx.toNat + (0xF : Nibble).toNat - 1 = 0xFFF := by decide
/-- DisplayReachedOnlyByClearAndDraw: registers that differ, with coordinates equal modulo 64 and 32. -/
theorem witness_coordinates : ∃ s s' : State, s' = { s with v := s'.v } ∧ s' ≠ s ∧
    (s'.getReg 0).toNat % 64 = (s.getReg 0).toNat % 64 ∧ (s'.getReg 1).toNat % 32 = (s.getReg 1).toNat % 32 :=
  ⟨(State.reset.setReg 0 0x03).setReg 1 0x1F, (State.reset.setReg 0 0x43).setReg 1 0xFF, rfl, by decide, by decide, by decide⟩
/-- DrawReportsCollision, DrawingTwiceRestores: a sprite bit that lands on a lit pixel, across both edges. -/
theorem witness_collision : ∃ s : State, s.idx.toNat + (2 : Nibble).toNat - 1 ≤ 0xFFF ∧
    s.pix.lit 5 0 = true ∧ s.sprite 0 1 2 5 0 := by
  refine ⟨((withBytes { State.reset with idx := 0x20C, pix := Grid.blank.set 0 0x20 } 0x20C [0xF0, 0x81]).setReg 0
    0x3E).setReg 1 0x1F, by decide, by decide, 1, 7, by decide, by decide, by decide, by decide, by decide⟩
/-- DrawReportsCollision, DrawingTwiceRestores: no collision on a blank screen; the same pixel was off. -/
theorem witness_no_collision : (¬ ∃ cx cy, State.reset.pix.lit cx cy = true ∧ State.reset.sprite 0 0 5 cx cy) ∧
    State.reset.pix.lit 0 0 = false ∧ State.reset.sprite 0 0 5 0 0 :=
  ⟨fun ⟨cx, cy, h, _⟩ => Bool.false_ne_true ((Grid.blank_lit cx cy).symm.trans h), by decide,
    0, 0, by decide, by decide, by decide, by decide, by decide⟩

/-- KeyEventsUpdateTheSlot, PressEndsKeyWait: each event in and outside a key wait. -/
theorem witness_key_events : ∃ s t u : State, (s.agenda = .press 9 :: [] ∧ s.executor ≠ .waitingForKey) ∧
    (t.agenda = .press 9 :: [] ∧ t.executor = .waitingForKey) ∧ u.agenda = .release :: [.timerTick] :=
  ⟨{ State.reset with agenda := [.press 9] }, { State.reset with agenda := [.press 9], executor := .waitingForKey },
    { State.reset with agenda := [.release, .timerTick] }, ⟨rfl, by decide⟩, ⟨rfl, rfl⟩, rfl⟩
/-- TimerTickCountsDown. -/
theorem witness_timer_tick : ({ State.reset with agenda := [.timerTick] } : State).agenda = .timerTick :: [] := rfl
/-- ToneFollowsSoundTimer: a tick that ends the tone and a load that starts it. -/
theorem witness_tone : (∃ s t : State, s.upcoming = .timerTick ∧ step s = .next t ∧ t.toneActive ≠ s.toneActive) ∧
    ∃ s t : State, s.cycles ∧ step s = .next t ∧ t.toneActive ≠ s.toneActive :=
  ⟨⟨{ State.reset with st := 1, agenda := [.timerTick] }, _, rfl, rfl, by decide⟩,
    ⟨(at200 0xF518).setReg 5 2, _, ⟨rfl, rfl⟩, rfl, by decide⟩⟩

end Sys2Proof.Tests
end

