-- ==== Sys2Proof/Proofs/CallStack.lean ====
section
/-!
PROOFS. The call stack is reached only by `CALL` and `RET` (spec 20_memory.md R55). Replacing the stack and sp commutes
with the two operations that branch in the other instructions, the skip and the bounds check, and hence with each of
those 32 instructions.
-/

namespace Sys2Proof

open Machine

/-- Replaces the call stack and sp. -/
def Machine.State.withStack (s : State) (stack : Vector Addr 16) (sp : Nibble) : State :=
  { s with stack := stack, sp := sp }

section WithStack

variable (s : State) (stack : Vector Addr 16) (sp : Nibble)

/-- R89: a skip neither depends on the call stack nor changes it. -/
theorem skipIf_withStack (c : Bool) : (s.withStack stack sp).skipIf c = (s.skipIf c).withStack stack sp := by
  rw [State.skipIf_eq, State.skipIf_eq]
  rfl

/-- R44, R172: the bounds check does not depend on the call stack, and its fault does not change it. -/
theorem guardAccess_withStack (i : Instr) (len : Nat) {done done' : State} (hdone : done' = done.withStack stack sp) :
    (s.withStack stack sp).guardAccess i len done' = (s.guardAccess i len done).withStack stack sp := by
  have hbounds : (s.withStack stack sp).inBounds len = s.inBounds len := rfl
  rcases s.guardAccess_cases i len done with ⟨hin, heq⟩ | ⟨hout, heq⟩
  · rw [heq, State.guardAccess_done _ _ (hbounds.trans hin), hdone]
  · rw [heq, State.guardAccess_fault _ _ (hbounds.trans hout)]
    rfl

/-- R55: an instruction other than `CALL` and `RET` commutes with replacing the call stack. -/
theorem exec_withStack (i : Instr) (h : i.usesStack = false) :
    exec i (s.withStack stack sp) = mapNext (fun t => t.withStack stack sp) (exec i s) := by
  cases i with
  | ret | call => exact nomatch h
  | seImm | sneImm | seReg | sneReg | skp | sknp => exact congrArg Host.Outcome.next (skipIf_withStack s stack sp _)
  | drw | ldB | storeRegs | loadRegs =>
    exact congrArg Host.Outcome.next (guardAccess_withStack s stack sp _ _ rfl)
  | cls | jp | ldImm | addImm | ldReg | orReg | andReg | xorReg | addReg | subReg | shr | subnReg | shl | ldI | jpV0
  | rnd | ldVxDt | ldVxK | ldDtVx | ldStVx | addI | ldF => rfl

end WithStack

/-- Settles O25: replacing the call stack and sp commutes with every instruction but `CALL` and `RET`. -/
theorem stackReachedOnlyByCallAndReturn : Obligations.StackReachedOnlyByCallAndReturn :=
  fun i s stack sp h => exec_withStack s stack sp i h

end Sys2Proof
end

