-- ==== Sys2Proof/Proofs/OpcodeMap.lean ====
section
/-!
PROOFS. The opcode map and the decoder agree (spec 30_encoding.md R65 to R69). A word that a row of the map selects is
put together from the row's fixed fields and the word's own operands, so it is the word of an instruction of that row;
and the decoder undoes the encoder. In the other direction an instruction's word selects the row of its mnemonic, and
no two rows share a mnemonic.
-/

namespace Sys2Proof

open Machine Laws.RowMatch

/-! ### Decoding an encoded instruction -/

/-- R64: the decoder undoes the encoder. `op` settles formats A, I and D; in families 0x8, 0xE and 0xF the sub-selector,
which the encoder put into `n` or `kk`, settles the rest. -/
theorem decodeWord_encode (i : Instr) : decodeWord (encode i) = .instr i := by
  cases i with
  | cls | ret => rfl
  | jp | call | ldI | jpV0 | seImm | sneImm | ldImm | addImm | rnd | seReg | sneReg | drw => simp [encode, decodeWord]
  | ldReg | orReg | andReg | xorReg | addReg | subReg | shr | subnReg | shl => simp [encode, decodeWord, decodeFamily8]
  | skp | sknp => simp [encode, decodeWord, decodeFamilyE]
  | ldVxDt | ldVxK | ldDtVx | ldStVx | addI | ldF | ldB | storeRegs | loadRegs =>
    simp [encode, decodeWord, decodeFamilyF]

/-! ### A word that a mask selects, put together again -/

/-- What the mask of format R keeps is a word of format R. -/
theorem mask_op_n_formatR (w : InsnWord) : w &&& 0xF00F = fieldOp w ++ 0x0#4 ++ 0x0#4 ++ fieldN w := by
  refine (mask_op_n w).trans (BitVec.eq_of_toNat_eq ?_)
  rw [formatR_toNat, append_toNat, append_toNat]
  simp only [BitVec.toNat_ofNat]
  omega

section Selected

variable {w : InsnWord} {o n : Nibble} {k : Byte}

/-- A mask that fixes `op` alone fixes it at the pattern's `op`. -/
theorem fieldOp_of_mask_op (h : w &&& 0xF000 = o ++ 0x000#12) : fieldOp w = o := by
  have hop := congrArg fieldOp ((mask_op w).symm.trans h)
  rwa [fieldOp_formatA, fieldOp_formatA] at hop

theorem formatA_of_mask_op (h : w &&& 0xF000 = o ++ 0x000#12) : o ++ fieldNnn w = w := by
  rw [← fieldOp_of_mask_op h, ← word_eq_formatA]

theorem formatI_of_mask_op (h : w &&& 0xF000 = o ++ 0x000#12) : o ++ fieldX w ++ fieldKk w = w := by
  rw [← fieldOp_of_mask_op h, ← word_eq_formatI]

theorem formatD_of_mask_op (h : w &&& 0xF000 = o ++ 0x000#12) :
    o ++ fieldX w ++ fieldY w ++ fieldN w = w := by
  rw [← fieldOp_of_mask_op h, ← word_eq_formatR]

theorem formatR_of_mask_op_n (h : w &&& 0xF00F = o ++ 0x0#4 ++ 0x0#4 ++ n) :
    o ++ fieldX w ++ fieldY w ++ n = w := by
  have hfields := (mask_op_n_formatR w).symm.trans h
  have hop := congrArg fieldOp hfields
  have hn := congrArg fieldN hfields
  rw [fieldOp_formatR, fieldOp_formatR] at hop
  rw [fieldN_formatR, fieldN_formatR] at hn
  rw [← hop, ← hn, ← word_eq_formatR]

theorem formatX_of_mask_op_kk (h : w &&& 0xF0FF = o ++ 0x0#4 ++ k) : o ++ fieldX w ++ k = w := by
  have hfields := (mask_op_kk w).symm.trans h
  have hop := congrArg fieldOp hfields
  have hkk := congrArg fieldKk hfields
  rw [fieldOp_formatI, fieldOp_formatI] at hop
  rw [fieldKk_formatI, fieldKk_formatI] at hkk
  rw [← hop, ← hkk, ← word_eq_formatI]

end Selected

/-! ### Rows and instructions -/

/-- R65 to R69: a word that a row of the opcode map selects is the word of an instruction of that row. -/
theorem exists_encode_of_selected : ∀ r ∈ opcodeMap, ∀ w : InsnWord, w &&& r.mask = r.pattern →
    ∃ i, mnemonicOf i = r.mnemonic ∧ encode i = w := by
  simp only [opcodeMap, List.cons_append, List.nil_append, List.forall_mem_cons]
  exact ⟨fun w h => ⟨.cls, rfl, h.symm.trans (BitVec.and_allOnes)⟩,
    fun w h => ⟨.ret, rfl, h.symm.trans (BitVec.and_allOnes)⟩,
    fun w h => ⟨.jp _, rfl, formatA_of_mask_op h⟩,
    fun w h => ⟨.call _, rfl, formatA_of_mask_op h⟩,
    fun w h => ⟨.seImm _ _, rfl, formatI_of_mask_op h⟩,
    fun w h => ⟨.sneImm _ _, rfl, formatI_of_mask_op h⟩,
    fun w h => ⟨.seReg _ _, rfl, formatR_of_mask_op_n h⟩,
    fun w h => ⟨.ldImm _ _, rfl, formatI_of_mask_op h⟩,
    fun w h => ⟨.addImm _ _, rfl, formatI_of_mask_op h⟩,
    fun w h => ⟨.ldReg _ _, rfl, formatR_of_mask_op_n h⟩,
    fun w h => ⟨.orReg _ _, rfl, formatR_of_mask_op_n h⟩,
    fun w h => ⟨.andReg _ _, rfl, formatR_of_mask_op_n h⟩,
    fun w h => ⟨.xorReg _ _, rfl, formatR_of_mask_op_n h⟩,
    fun w h => ⟨.addReg _ _, rfl, formatR_of_mask_op_n h⟩,
    fun w h => ⟨.subReg _ _, rfl, formatR_of_mask_op_n h⟩,
    fun w h => ⟨.shr _ _, rfl, formatR_of_mask_op_n h⟩,
    fun w h => ⟨.subnReg _ _, rfl, formatR_of_mask_op_n h⟩,
    fun w h => ⟨.shl _ _, rfl, formatR_of_mask_op_n h⟩,
    fun w h => ⟨.sneReg _ _, rfl, formatR_of_mask_op_n h⟩,
    fun w h => ⟨.ldI _, rfl, formatA_of_mask_op h⟩,
    fun w h => ⟨.jpV0 _, rfl, formatA_of_mask_op h⟩,
    fun w h => ⟨.rnd _ _, rfl, formatI_of_mask_op h⟩,
    fun w h => ⟨.drw _ _ _, rfl, formatD_of_mask_op h⟩,
    fun w h => ⟨.skp _, rfl, formatX_of_mask_op_kk h⟩,
    fun w h => ⟨.sknp _, rfl, formatX_of_mask_op_kk h⟩,
    fun w h => ⟨.ldVxDt _, rfl, formatX_of_mask_op_kk h⟩,
    fun w h => ⟨.ldVxK _, rfl, formatX_of_mask_op_kk h⟩,
    fun w h => ⟨.ldDtVx _, rfl, formatX_of_mask_op_kk h⟩,
    fun w h => ⟨.ldStVx _, rfl, formatX_of_mask_op_kk h⟩,
    fun w h => ⟨.addI _, rfl, formatX_of_mask_op_kk h⟩,
    fun w h => ⟨.ldF _, rfl, formatX_of_mask_op_kk h⟩,
    fun w h => ⟨.ldB _, rfl, formatX_of_mask_op_kk h⟩,
    fun w h => ⟨.storeRegs _, rfl, formatX_of_mask_op_kk h⟩,
    fun w h => ⟨.loadRegs _, rfl, formatX_of_mask_op_kk h⟩, nofun⟩

/-- The mnemonic names the row. -/
theorem opcodeMap_mnemonic_inj :
    ∀ r ∈ opcodeMap, ∀ r' ∈ opcodeMap, r.mnemonic = r'.mnemonic → r = r' := by decide

/-- Every instruction is well formed, and its word selects the row that bears its mnemonic. -/
theorem rowMatch (i : Instr) : Statement i := by
  cases i
  exacts [cls, ret, jp _, call _, seImm _ _, sneImm _ _, seReg _ _, ldImm _ _, addImm _ _, ldReg _ _, orReg _ _,
    andReg _ _, xorReg _ _, addReg _ _, subReg _ _, shr _ _, subnReg _ _, shl _ _, sneReg _ _, ldI _, jpV0 _, rnd _ _,
    drw _ _ _, skp _, sknp _, ldVxDt _, ldVxK _, ldDtVx _, ldStVx _, addI _, ldF _, ldB _, storeRegs _, loadRegs _]

/-- An instruction's word selects the row of the instruction's mnemonic. -/
theorem encode_selects {r : MapRow} (hr : r ∈ opcodeMap) {i : Instr} (hname : mnemonicOf i = r.mnemonic) :
    encode i &&& r.mask = r.pattern := by
  obtain ⟨-, r', hr', hname', hmatch⟩ := rowMatch i
  rwa [opcodeMap_mnemonic_inj r hr r' hr' (hname.symm.trans hname'.symm)]

/-- Settles O4: a selected word is the word of an instruction of the row, and such a word is selected. -/
theorem opcodeMapSelectsInstruction : Obligations.OpcodeMapSelectsInstruction := by
  refine ⟨fun w r hr => ⟨fun h => ?_, ?_⟩, fun x y y' s => ⟨rfl, rfl⟩⟩
  · obtain ⟨i, hname, rfl⟩ := exists_encode_of_selected r hr w h
    exact ⟨i, decodeWord_encode i, hname, rfl⟩
  · rintro ⟨i, -, hname, rfl⟩
    exact encode_selects hr hname

end Sys2Proof
end

