-- ==== Sys2Proof/Proofs/ControlTransfer.lean ====
section
/-!
PROOFS. The jumps and the comparing skips (spec 40_control_transfer.md R82, R84 to R88). A jump writes pc and nothing
else; the target of `JP V0, nnn` is nnn plus the zero-extended V0, modulo 4096.
-/

namespace Sys2Proof

open Machine

/-! ### Writing pc -/

/-- Writing pc leaves everything else as it is. -/
theorem onlyPc_setPc (s : State) (a : Addr) : OnlyPc s (s.setPc a) := ⟨rfl, fun _ => rfl⟩

/-! ### The jumps -/

theorem exec_jp (nnn : Addr) (s : State) : exec (.jp nnn) s = .next (s.setPc nnn) := rfl

theorem exec_jpV0 (nnn : Addr) (s : State) :
    exec (.jpV0 nnn) s = .next (s.setPc (nnn + zextAddr (s.getReg 0))) := rfl

/-- R88: adding a byte to an address wraps at 4096. -/
theorem add_zextAddr_toNat (a : Addr) (b : Byte) : (a + zextAddr b).toNat = (a.toNat + b.toNat) % 4096 := by
  rw [BitVec.toNat_add, zextAddr_toNat]

/-- Settles O18: `JP nnn` is a write of pc. -/
theorem jumpIsAbsolute : Obligations.JumpIsAbsolute :=
  fun nnn s => ⟨_, exec_jp nnn s, s.setPc_pc nnn, onlyPc_setPc s nnn⟩

/-- Settles O19: `JP V0, nnn` is a write of pc, and the sum wraps. -/
theorem indexedJumpAddsV0 : Obligations.IndexedJumpAddsV0 :=
  fun nnn s => ⟨_, exec_jpV0 nnn s, add_zextAddr_toNat nnn (s.getReg 0), onlyPc_setPc s _⟩

/-! ### The comparing skips -/

section Compare

variable (s : State) (a b : Byte)

/-- R84, R86: a skip if two bytes are equal. -/
theorem skipIf_beq : s.skipIf (a == b) = if a = b then s.skip else s := by
  by_cases h : a = b
  · rw [if_pos h, beq_iff_eq.mpr h]
    rfl
  · rw [if_neg h, beq_eq_false_iff_ne.mpr h]
    rfl

/-- R85, R87: a skip if two bytes differ. -/
theorem skipIf_bne : s.skipIf (a != b) = if a = b then s else s.skip := by
  by_cases h : a = b
  · rw [if_pos h, bne_eq_false_iff_eq.mpr h]
    rfl
  · rw [if_neg h, bne_iff_ne.mpr h]
    rfl

end Compare

/-- Settles O20: each of the four is a skip under its own comparison. -/
theorem skipsOnComparison : Obligations.SkipsOnComparison :=
  fun x y kk s =>
    ⟨congrArg Host.Outcome.next (skipIf_beq s (s.getReg x) kk),
      congrArg Host.Outcome.next (skipIf_bne s (s.getReg x) kk),
      congrArg Host.Outcome.next (skipIf_beq s (s.getReg x) (s.getReg y)),
      congrArg Host.Outcome.next (skipIf_bne s (s.getReg x) (s.getReg y))⟩

end Sys2Proof
end

