-- ==== Sys2Proof/Proofs/LoadAlu.lean ====
section
/-!
PROOFS. The register loads, the copy, the additions and the bitwise instructions (spec 41_load_alu.md R101 to R107).
Each is a write of V[x]; `ADD Vx, Vy` writes VF before it, so when x is F the sum overwrites the carry.
-/

namespace Sys2Proof

open Machine

/-! ### Writing registers -/

/-- A register write leaves everything else as it is. -/
theorem onlyRegisters_setReg (s : State) (x : Nibble) (b : Byte) : OnlyRegisters (· = x) s (s.setReg x b) :=
  ⟨rfl, fun _ hj => s.getReg_setReg_other b hj, fun _ => rfl⟩

/-- What two changes in turn leave alone is what both leave alone. -/
theorem OnlyRegisters.trans {P Q : Nibble → Prop} {s t u : State} (hst : OnlyRegisters P s t)
    (htu : OnlyRegisters Q t u) : OnlyRegisters (fun j => Q j ∨ P j) s u := by
  obtain ⟨ht, hregs, hmem⟩ := hst
  obtain ⟨hu, hregs', hmem'⟩ := htu
  refine ⟨hu.trans (congrArg (fun r : State => { r with v := u.v }) ht), fun j hj => ?_, fun a => ?_⟩
  · obtain ⟨hQ, hP⟩ := not_or.mp hj
    exact (hregs' j hQ).trans (hregs j hP)
  · exact (hmem' a).trans (hmem a)

/-- A flag and then V[x] written: nothing but VF and V[x] changes. -/
theorem onlyRegisters_setFlag_setReg (s : State) (c : Bool) (x : Nibble) (b : Byte) :
    OnlyRegisters (fun j => j = x ∨ j = 0xF) s ((s.setFlag c).setReg x b) :=
  (onlyRegisters_setReg s 0xF (flagByte c)).trans (onlyRegisters_setReg _ x b)

/-- A flag written before V[x] stands afterwards, unless x is F. -/
theorem getReg_vf_setFlag_setReg (s : State) (c : Bool) {x : Nibble} (b : Byte) (hx : x ≠ 0xF) :
    ((s.setFlag c).setReg x b).getReg 0xF = flagByte c := by
  rw [State.getReg_setReg_other _ b hx.symm, State.setFlag_eq, State.getReg_setReg_same]

/-! ### The carry -/

/-- R16, D27: the byte of a flag that a comparison gives. -/
theorem flagByte_decide (p : Prop) [Decidable p] : flagByte (decide p) = if p then 1 else 0 := by
  by_cases h : p
  · rw [decide_eq_true h, if_pos h, flagByte_true]
  · rw [decide_eq_false h, if_neg h, flagByte_false]

/-- R107: the carry is the comparison of the exact sum with 255. -/
theorem carryOf_sum9 (a b : Byte) : carryOf (sum9 a b) = decide (255 < a.toNat + b.toNat) := by
  rw [carryOf, sum9_toNat]

/-! ### The instructions as register writes -/

section Exec

variable (x y : Nibble) (kk : Byte) (s : State)

theorem exec_ldImm : exec (.ldImm x kk) s = .next (s.setReg x kk) := rfl

theorem exec_ldReg : exec (.ldReg x y) s = .next (s.setReg x (s.getReg y)) := rfl

theorem exec_addImm : exec (.addImm x kk) s = .next (s.setReg x (s.getReg x + kk)) := rfl

theorem exec_orReg : exec (.orReg x y) s = .next (s.setReg x (s.getReg x ||| s.getReg y)) := rfl

theorem exec_andReg : exec (.andReg x y) s = .next (s.setReg x (s.getReg x &&& s.getReg y)) := rfl

theorem exec_xorReg : exec (.xorReg x y) s = .next (s.setReg x (s.getReg x ^^^ s.getReg y)) := rfl

theorem exec_addReg : exec (.addReg x y) s =
    .next ((s.setFlag (carryOf (sum9 (s.getReg x) (s.getReg y)))).setReg x (s.getReg x + s.getReg y)) := by
  rw [← sum9_setWidth]
  rfl

end Exec

/-- Settles O32: the flag is written before the sum, and both come from the registers as they were. -/
theorem addWithCarry : Obligations.AddWithCarry := by
  refine fun x y s => ⟨_, exec_addReg x y s, ?_, fun hx => ?_, onlyRegisters_setFlag_setReg s _ x _⟩
  · rw [State.getReg_setReg_same, BitVec.toNat_add]
  · rw [getReg_vf_setFlag_setReg s _ _ hx, carryOf_sum9, flagByte_decide]

/-- Settles O29: the load and the copy are each a write of V[x]. -/
theorem loadsAndCopies : Obligations.LoadsAndCopies :=
  fun x y kk s =>
    ⟨⟨_, exec_ldImm x kk s, s.getReg_setReg_same x kk, onlyRegisters_setReg s x kk⟩,
      _, exec_ldReg x y s, s.getReg_setReg_same x _, onlyRegisters_setReg s x _⟩

/-- Settles O30: the sum of two bytes wraps, and V[x] alone is written. -/
theorem addImmediateWraps : Obligations.AddImmediateWraps := by
  refine fun x kk s => ⟨_, exec_addImm x kk s, ?_, onlyRegisters_setReg s x _⟩
  rw [State.getReg_setReg_same, BitVec.toNat_add]

/-- Settles O31: each is a write of V[x], and the word operations act bit by bit. -/
theorem bitwiseLogic : Obligations.BitwiseLogic := by
  refine fun x y s =>
    ⟨⟨_, exec_orReg x y s, onlyRegisters_setReg s x _, fun k => ?_⟩,
      ⟨_, exec_andReg x y s, onlyRegisters_setReg s x _, fun k => ?_⟩,
      ⟨_, exec_xorReg x y s, onlyRegisters_setReg s x _, fun k => ?_⟩⟩
  · rw [State.getReg_setReg_same, BitVec.getLsbD_or]
  · rw [State.getReg_setReg_same, BitVec.getLsbD_and]
  · rw [State.getReg_setReg_same, BitVec.getLsbD_xor]

end Sys2Proof
end

