-- ==== Sys2Proof/Proofs/IndexMemory.lean ====
section
/-!
PROOFS. The instructions that write the index register (spec 42_index_memory.md R120 to R122). Each is a write of I and
nothing else. The sum of `ADD I, Vx` wraps at 4096; the product of `LD F, Vx` cannot, 5 · 255 being below 4096.
-/

namespace Sys2Proof

open Machine

/-- Writing I leaves everything else as it is. -/
theorem onlyIndex_setIdx (s : State) (a : Addr) : OnlyIndex s (s.setIdx a) := ⟨rfl, fun _ => rfl⟩

/-! ### The instructions as writes of I -/

section Exec

variable (x : Nibble) (nnn : Addr) (s : State)

theorem exec_ldI : exec (.ldI nnn) s = .next (s.setIdx nnn) := rfl

theorem exec_addI : exec (.addI x) s = .next (s.setIdx (s.idx + zextAddr (s.getReg x))) := rfl

theorem exec_ldF : exec (.ldF x) s = .next (s.setIdx (zextAddr (s.getReg x) * 5)) := rfl

end Exec

/-- Settles O38: each is a write of I; the sum wraps, and the product of the whole byte fits in 12 bits. -/
theorem indexRegisterLoads : Obligations.IndexRegisterLoads :=
  fun x nnn s =>
    ⟨⟨_, exec_ldI nnn s, s.setIdx_idx nnn, onlyIndex_setIdx s nnn⟩,
      ⟨_, exec_addI x s, add_zextAddr_toNat s.idx (s.getReg x), onlyIndex_setIdx s _⟩,
      _, exec_ldF x s, zextAddr_mul_five_toNat (s.getReg x), onlyIndex_setIdx s _⟩

end Sys2Proof
end

