-- ==== Sys2Proof/Proofs/InputTimers.lean ====
section
/-!
PROOFS. The copies between V[x] and the timers (spec 44_input_timers.md R153, R155, R156). Each is one write, of V[x],
of DT or of ST. `tone_active` is no state of its own but a comparison of ST with 0, so it follows the write of ST at once.
-/

namespace Sys2Proof

open Machine

/-- R179 as the spec words it: the tone sounds while the sound timer, as a number, is above 0. -/
theorem toneActive_iff_pos (s : State) : s.toneActive = true ↔ 0 < s.st.toNat := by
  rw [State.toneActive, decide_eq_true_iff]

/-! ### The instructions as writes of one register or timer -/

section Exec

variable (x : Nibble) (s : State)

theorem exec_ldVxDt : exec (.ldVxDt x) s = .next (s.setReg x s.dt) := rfl

theorem exec_ldDtVx : exec (.ldDtVx x) s = .next (s.setDt (s.getReg x)) := rfl

theorem exec_ldStVx : exec (.ldStVx x) s = .next (s.setSt (s.getReg x)) := rfl

end Exec

/-- Settles O56: each is a single write, and the tone compares the sound timer just written with 0. -/
theorem timerInstructions : Obligations.TimerInstructions := by
  refine fun x s =>
    ⟨⟨_, exec_ldVxDt x s, s.getReg_setReg_same x _, onlyRegisters_setReg s x _⟩,
      ⟨_, exec_ldDtVx x s, s.setDt_dt _, rfl, fun _ => rfl⟩,
      _, exec_ldStVx x s, s.setSt_st _, ?_, rfl, fun _ => rfl⟩
  rw [toneActive_iff_pos, State.setSt_st]

end Sys2Proof
end

