-- ==== Sys2Proof/Proofs/Events.lean ====
section
/-!
PROOFS. The steps of the keypad and timer agents (spec 60_exceptions.md R179, R181, R182). A press and a release write
the pressed-key slot; only a press in a key wait does more. The sound timer, and the tone with it, is written by
`timer_tick` and by `LD ST, Vx` alone: every other instruction, every fault and every other agent's step keeps it.
-/

namespace Sys2Proof

open Machine

/-! ### The pressed-key slot -/

/-- R51: the first event of the agenda is performed on the state that has the others left. -/
theorem step_of_agenda {s : State} {e : Event} {rest : List Event} (h : s.agenda = e :: rest) :
    step s = (s.setAgenda rest).perform e := by
  rw [step, State.nextEvent, h]

/-- Settles O53: both events write the slot in every executor state; the press splits on whether a key wait ends. -/
theorem keyEventsUpdateTheSlot : Obligations.KeyEventsUpdateTheSlot := by
  refine fun s k rest => ⟨fun h => ⟨_, step_of_agenda h, ?_⟩, fun h => ⟨_, step_of_agenda h, rfl, rfl⟩⟩
  rcases (s.setAgenda rest).press_cases k with ⟨hwait, hpress⟩ | ⟨hwait, hpress⟩
  · rw [hpress]
    exact ⟨rfl, rfl, fun hno => absurd hwait hno, fun _ => rfl⟩
  · rw [hpress]
    exact ⟨rfl, rfl, fun _ => rfl, fun hyes => absurd hyes hwait⟩

/-! ### What writes the sound timer -/

/-- A guarded access whose effects keep ST keeps it, fault or not. -/
theorem guardAccess_st {s done : State} (i : Instr) (len : Nat) (h : done.st = s.st) :
    (s.guardAccess i len done).st = s.st := by
  rcases s.guardAccess_cases i len done with ⟨-, heq⟩ | ⟨-, heq⟩
  · rw [heq, h]
  · rw [heq, State.dataFault_eq, State.halt_st]

/-- R181, R182: a press keeps ST, whether or not it ends a key wait. -/
theorem press_st (s : State) (k : Nibble) : (s.press k).st = s.st := by
  rcases s.press_cases k with ⟨-, heq⟩ | ⟨-, heq⟩
  · rw [heq, State.endKeyWait_st, State.keyDown_st]
  · rw [heq, State.keyDown_st]

/-- R156: an instruction other than `LD ST, Vx` keeps ST, also when it faults. -/
theorem exec_st_or_ldStVx (i : Instr) (s : State) :
    (∃ x, i = .ldStVx x) ∨ ∃ t, exec i s = .next t ∧ t.st = s.st := by
  cases i with
  | ldStVx x => exact .inl ⟨x, rfl⟩
  | call nnn =>
    by_cases h : s.sp = 15
    · exact .inr ⟨_, if_pos h, rfl⟩
    · exact .inr ⟨_, if_neg h, rfl⟩
  | ret =>
    by_cases h : s.sp = 0
    · exact .inr ⟨_, if_pos h, rfl⟩
    · exact .inr ⟨_, if_neg h, rfl⟩
  | drw | ldB | storeRegs | loadRegs => exact .inr ⟨_, rfl, guardAccess_st _ _ rfl⟩
  | seImm | sneImm | seReg | sneReg | skp | sknp =>
    refine .inr ⟨_, rfl, ?_⟩
    rw [State.skipIf_eq, State.setPc_st]
  | cls | jp | ldImm | addImm | ldReg | orReg | andReg | xorReg | addReg | subReg | shr | subnReg | shl | ldI | jpV0
  | rnd | ldVxDt | ldVxK | ldDtVx | addI | ldF => exact .inr ⟨_, rfl, rfl⟩

section SoundTimer

variable {s t : State}

/-- A meaning answers one next state, so what is known of its ST holds of that state under any name. -/
theorem st_of_next {r : Result} {u : State} {b : Byte} (hu : r = .next u) (ht : r = .next t) (hst : u.st = b) :
    t.st = b := by
  cases hu.symm.trans ht
  exact hst

/-- R80, R179: a cycle that changes ST executed `LD ST, Vx`. -/
theorem ldStVx_of_runCycle_st_ne (h : s.runCycle = .next t) (hst : t.st ≠ s.st) :
    ∃ x, decodeWord s.fetchWord = .instr (.ldStVx x) := by
  rcases s.runCycle_cases with ⟨-, hrun⟩ | ⟨-, -, hrun⟩ | ⟨-, i, hdec, hrun⟩
  · exact absurd (st_of_next hrun h rfl) hst
  · exact absurd (st_of_next hrun h rfl) hst
  · rcases exec_st_or_ldStVx i s.advance with ⟨x, rfl⟩ | ⟨u, hexec, hkeep⟩
    · exact ⟨x, hdec⟩
    · exact absurd (st_of_next (hrun.trans hexec) h hkeep) hst

/-- R177, R179: a step that changes ST is a timer tick or a cycle that executed `LD ST, Vx`. -/
theorem writer_of_step_st_ne (h : step s = .next t) (hst : t.st ≠ s.st) :
    s.upcoming = .timerTick ∨ s.cycles ∧ ∃ x, decodeWord s.fetchWord = .instr (.ldStVx x) := by
  rcases step_cases s with ⟨hcyc, hstep⟩ | ⟨-, -, hstep⟩ | ⟨htick, -⟩ | ⟨k, -, hstep⟩ | ⟨-, hstep⟩
  · exact .inr ⟨hcyc, ldStVx_of_runCycle_st_ne (s := s.setAgenda s.agenda.tail) (hstep.symm.trans h) hst⟩
  · exact absurd (st_of_next hstep h rfl) hst
  · exact .inl htick
  · exact absurd (st_of_next hstep h (press_st _ k)) hst
  · exact absurd (st_of_next hstep h rfl) hst

/-- R179: the tone depends on ST alone. -/
theorem toneActive_congr (h : t.st = s.st) : t.toneActive = s.toneActive := by
  rw [State.toneActive, h, ← State.toneActive]

end SoundTimer

/-- Settles O58: the tone is a comparison of ST with 0, so a step that changes it changes ST. -/
theorem toneFollowsSoundTimer : Obligations.ToneFollowsSoundTimer :=
  ⟨toneActive_iff_pos, fun _ _ hstep htone => writer_of_step_st_ne hstep (mt toneActive_congr htone)⟩

end Sys2Proof
end

