-- ==== Sys2Proof/Proofs/Decoder.lean ====
section
/-!
PROOFS. The decoder and the encoder are inverse to each other, and the words that do not decode (spec 30_encoding.md
R64 to R70 and the table of section 4). A word is its fields; `op`, and where there is one the sub-selector `n` or `kk`,
are what the decoder branches on, and the other fields are the operands.
-/

namespace Sys2Proof

open Machine

/-! ### Words from the fields the decoder has tested -/

section Fields

variable {w : InsnWord} {o n k : Nat}

/-- A field known as a number is that literal. -/
theorem eq_ofNat_of_toNat_eq {m : Nat} {f : BitVec m} (h : f.toNat = n) : BitVec.ofNat m n = f := by
  rw [← h, BitVec.ofNat_toNat, BitVec.setWidth_eq]

theorem formatA_of_op (ho : (fieldOp w).toNat = o) : BitVec.ofNat 4 o ++ fieldNnn w = w := by
  rw [eq_ofNat_of_toNat_eq ho, ← word_eq_formatA]

theorem formatI_of_op (ho : (fieldOp w).toNat = o) : BitVec.ofNat 4 o ++ fieldX w ++ fieldKk w = w := by
  rw [eq_ofNat_of_toNat_eq ho, ← word_eq_formatI]

theorem formatD_of_op (ho : (fieldOp w).toNat = o) :
    BitVec.ofNat 4 o ++ fieldX w ++ fieldY w ++ fieldN w = w := by
  rw [eq_ofNat_of_toNat_eq ho, ← word_eq_formatR]

theorem formatR_of_op_n (ho : (fieldOp w).toNat = o) (hn : (fieldN w).toNat = n) :
    BitVec.ofNat 4 o ++ fieldX w ++ fieldY w ++ BitVec.ofNat 4 n = w := by
  rw [eq_ofNat_of_toNat_eq ho, eq_ofNat_of_toNat_eq hn, ← word_eq_formatR]

theorem formatX_of_op_kk (ho : (fieldOp w).toNat = o) (hk : (fieldKk w).toNat = k) :
    BitVec.ofNat 4 o ++ fieldX w ++ BitVec.ofNat 8 k = w := by
  rw [eq_ofNat_of_toNat_eq ho, eq_ofNat_of_toNat_eq hk, ← word_eq_formatI]

end Fields

/-! ### Encoding a decoded instruction -/

section Families

variable {w : InsnWord} {i : Instr}

theorem encode_of_decodeFamily0 (h : decodeFamily0 w = .instr i) : encode i = w := by
  unfold decodeFamily0 at h
  split at h
  · next hw => cases h; exact hw.symm
  · split at h
    · next hw => cases h; exact hw.symm
    · cases h

/-- R67: `n` selects the row, and the row's word has that `n`. -/
theorem encode_of_decodeFamily8 (ho : (fieldOp w).toNat = 0x8) (h : decodeFamily8 w = .instr i) : encode i = w := by
  unfold decodeFamily8 at h
  split at h <;> cases h <;> exact formatR_of_op_n ho (by assumption)

/-- R68: `kk` selects the row, and the row's word has that `kk`. -/
theorem encode_of_decodeFamilyE (ho : (fieldOp w).toNat = 0xE) (h : decodeFamilyE w = .instr i) : encode i = w := by
  unfold decodeFamilyE at h
  split at h <;> cases h <;> exact formatX_of_op_kk ho (by assumption)

/-- R69: `kk` selects the row, and the row's word has that `kk`. -/
theorem encode_of_decodeFamilyF (ho : (fieldOp w).toNat = 0xF) (h : decodeFamilyF w = .instr i) : encode i = w := by
  unfold decodeFamilyF at h
  split at h <;> cases h <;> exact formatX_of_op_kk ho (by assumption)

/-- R65, R67: families 0x5 and 0x9 demand `n` = 0, and the row's word has it. -/
theorem encode_of_if_n_zero {j : Instr} {o : Nat} (ho : (fieldOp w).toNat = o)
    (hj : encode j = BitVec.ofNat 4 o ++ fieldX w ++ fieldY w ++ 0x0#4)
    (h : (if fieldN w = 0x0#4 then .instr j else .unmatched w) = Decoded.instr i) : encode i = w := by
  split at h
  · next hn =>
    cases h
    exact hj.trans (formatR_of_op_n ho (congrArg BitVec.toNat hn))
  · cases h

/-- R64: the encoder undoes the decoder. -/
theorem encode_of_decodeWord (h : decodeWord w = .instr i) : encode i = w := by
  unfold decodeWord at h
  split at h
  case h_1 => exact encode_of_decodeFamily0 h
  case h_6 ho => exact encode_of_if_n_zero ho rfl h
  case h_9 ho => exact encode_of_decodeFamily8 ho h
  case h_10 ho => exact encode_of_if_n_zero ho rfl h
  case h_14 ho => cases h; exact formatD_of_op ho
  case h_15 ho => exact encode_of_decodeFamilyE ho h
  case h_16 ho => exact encode_of_decodeFamilyF ho h
  case h_17 => cases h
  case h_2 ho | h_3 ho | h_11 ho | h_12 ho => cases h; exact formatA_of_op ho
  case h_4 ho | h_5 ho | h_7 ho | h_8 ho | h_13 ho => cases h; exact formatI_of_op ho

end Families

/-- Settles O2: every instruction is well formed, so the law of all instructions is the statement. -/
theorem decodeEncodeRoundTrip : Obligations.DecodeEncodeRoundTrip :=
  fun i _ => decodeWord_encode i

/-- Settles O3: the fields that the decoder does not test are the operands, and the encoder puts both together. -/
theorem encodeDecodeRoundTrip : Obligations.EncodeDecodeRoundTrip :=
  fun _ _ h => encode_of_decodeWord h

/-- Settles O1: eleven words and three that do not decode, evaluated. -/
theorem specWordsDecode : Obligations.SpecWordsDecode := by
  unfold Obligations.SpecWordsDecode
  decide

/-! ### The words that do not decode (R70) -/

section Unmatched

variable (w : InsnWord)

theorem decodeFamily0_unmatched_iff : decodeFamily0 w = .unmatched w ↔ w ≠ 0x00E0 ∧ w ≠ 0x00EE := by
  unfold decodeFamily0
  split
  · simp_all
  · split <;> simp_all

theorem decodeFamily8_unmatched_iff :
    decodeFamily8 w = .unmatched w ↔ (fieldN w).toNat ∈ [0x8, 0x9, 0xA, 0xB, 0xC, 0xD, 0xF] := by
  have hlt := (fieldN w).isLt
  unfold decodeFamily8
  generalize (fieldN w).toNat = n at hlt
  interval_cases n <;> simp

theorem decodeFamilyE_unmatched_iff : decodeFamilyE w = .unmatched w ↔ (fieldKk w).toNat ∉ [0x9E, 0xA1] := by
  unfold decodeFamilyE
  split <;> simp_all

theorem decodeFamilyF_unmatched_iff : decodeFamilyF w = .unmatched w ↔
    (fieldKk w).toNat ∉ [0x07, 0x0A, 0x15, 0x18, 0x1E, 0x29, 0x33, 0x55, 0x65] := by
  unfold decodeFamilyF
  split <;> simp_all

theorem if_n_zero_unmatched_iff (j : Instr) :
    (if fieldN w = 0x0#4 then .instr j else .unmatched w) = Decoded.unmatched w ↔ (fieldN w).toNat ≠ 0 := by
  have hzero : fieldN w = 0x0#4 ↔ (fieldN w).toNat = 0 := BitVec.toNat_inj.symm
  split <;> simp_all

end Unmatched

/-- Settles O5: `op` names the family, and each family has its own unmatched words. -/
theorem unmatchedWordsCharacterised : Obligations.UnmatchedWordsCharacterised := by
  intro w
  unfold decodeWord
  split
  case h_1 ho => simp [ho, decodeFamily0_unmatched_iff]
  case h_6 ho | h_10 ho => rw [if_n_zero_unmatched_iff]; simp [ho]
  case h_9 ho => simp [ho, decodeFamily8_unmatched_iff]
  case h_15 ho => simp [ho, decodeFamilyE_unmatched_iff]
  case h_16 ho => simp [ho, decodeFamilyF_unmatched_iff]
  case h_17 =>
    have hlt := (fieldOp w).isLt
    interval_cases (fieldOp w).toNat <;> contradiction
  case h_2 ho | h_3 ho | h_4 ho | h_5 ho | h_7 ho | h_8 ho | h_11 ho | h_12 ho | h_13 ho | h_14 ho => simp [ho]

end Sys2Proof
end

