-- ==== Sys2Proof/Proofs/Effects.lean ====
section
/-!
PROOFS. Everything an instruction can do (spec 40_control_transfer.md R80; 60_exceptions.md R171 to R173). Where the
fault table gives no fault, the execute phase answers the state `Instr.effect` names; where it gives one, the execute
phase is the halt sequence with the table's cause and address. Frames of instructions are then frames of `Instr.effect`
and of `State.halt`, field by field.
-/

namespace Sys2Proof

open Machine

/-! ### The effect of an instruction that does not fault -/

/-- The state a skip under the condition `c` leaves (R89). -/
def Machine.State.skipped (s : State) (c : Bool) : State := s.setPc (if c then s.pc + 2 else s.pc)

/-- A flag, and then V[x] from the registers as they are after it (R100, R108 to R111; D3). -/
def Machine.State.flagThen (s : State) (c : Bool) (x : Nibble) (f : State → Byte) : State :=
  (s.setFlag c).setReg x (f (s.setFlag c))

/-- The state after instruction `i` where it raises no fault (40 to 44). -/
def Instr.effect (i : Instr) (s : State) : State :=
  match i with
  | .cls => (s.setPix Grid.blank).emit .dispChanged
  | .ret => s.pop
  | .jp nnn => s.setPc nnn
  | .call nnn => (s.push s.pc).setPc nnn
  | .seImm x kk => s.skipped (s.getReg x == kk)
  | .sneImm x kk => s.skipped (s.getReg x != kk)
  | .seReg x y => s.skipped (s.getReg x == s.getReg y)
  | .ldImm x kk => s.setReg x kk
  | .addImm x kk => s.setReg x (s.getReg x + kk)
  | .ldReg x y => s.setReg x (s.getReg y)
  | .orReg x y => s.setReg x (s.getReg x ||| s.getReg y)
  | .andReg x y => s.setReg x (s.getReg x &&& s.getReg y)
  | .xorReg x y => s.setReg x (s.getReg x ^^^ s.getReg y)
  | .addReg x y => s.flagThen (carryOf (sum9 (s.getReg x) (s.getReg y))) x (fun _ => s.getReg x + s.getReg y)
  | .subReg x y => s.flagThen (strictlyGreater (s.getReg x) (s.getReg y)) x (fun t => t.getReg x - t.getReg y)
  | .shr x _ => s.flagThen (lowBit (s.getReg x)) x (fun t => t.getReg x >>> 1)
  | .subnReg x y => s.flagThen (strictlyGreater (s.getReg y) (s.getReg x)) x (fun t => t.getReg y - t.getReg x)
  | .shl x _ => s.flagThen (highBit (s.getReg x)) x (fun t => t.getReg x <<< 1)
  | .sneReg x y => s.skipped (s.getReg x != s.getReg y)
  | .ldI nnn => s.setIdx nnn
  | .jpV0 nnn => s.setPc (nnn + zextAddr (s.getReg 0))
  | .rnd x kk => s.countDraw.setReg x (s.drawn &&& kk)
  | .drw x y n => ((s.setPix (s.spriteBlit x y n).pix).setFlag (s.spriteBlit x y n).coll).emit .dispChanged
  | .skp x => s.skipped (s.isPressed (s.getReg x))
  | .sknp x => s.skipped (!s.isPressed (s.getReg x))
  | .ldVxDt x => s.setReg x s.dt
  | .ldVxK x => s.park x
  | .ldDtVx x => s.setDt (s.getReg x)
  | .ldStVx x => s.setSt (s.getReg x)
  | .addI x => s.setIdx (s.idx + zextAddr (s.getReg x))
  | .ldF x => s.setIdx (zextAddr (s.getReg x) * 5)
  | .ldB x => s.storeAtI (decimalDigits (s.getReg x))
  | .storeRegs x => s.storeAtI (s.regsUpTo x)
  | .loadRegs x => s.setRegs (putRegs s.v 0 (s.readAtI (regCount x)))

/-! ### The fault table and the checks of the execute phase -/

section Faults

variable (s : State) (i : Instr) (len : Nat)

/-- R44: an access faults exactly when it leaves memory, at its highest address. -/
theorem boundsFault_eq : s.boundsFault len = if s.inBounds len then none else some (.addressFault, s.highest len) := by
  have hin := s.inBounds_iff len
  rw [Config.memSize] at hin
  unfold State.boundsFault State.highest
  by_cases h : s.inBounds len = true
  · have hinside := hin.mp h
    rw [if_pos h, if_neg (by omega)]
  · have houtside := mt hin.mpr h
    rw [if_neg h, if_pos (by omega), Nat.add_sub_assoc (by omega)]

/-- The bound of an access of at least one byte, as the statements give it (R44). -/
theorem boundsFault_none (h : len = 0 ∨ s.idx.toNat + len - 1 ≤ 0xFFF) : s.boundsFault len = none :=
  if_neg (by omega)

/-- R44, R173: a guarded access has its effects, or faults where and as the fault table says. -/
theorem guardAccess_by_fault_table (done : State) :
    (s.boundsFault len = none ∧ (.next (s.guardAccess i len done) : Result) = .next done) ∨
    ∃ c a, s.boundsFault len = some (c, a) ∧
      (.next (s.guardAccess i len done) : Result) = .next (s.halt c (encode i) (BitVec.ofNat 13 a)) := by
  rcases s.guardAccess_cases i len done with ⟨hin, heq⟩ | ⟨hout, heq⟩
  · exact .inl ⟨by rw [boundsFault_eq, if_pos hin], congrArg _ heq⟩
  · exact .inr ⟨_, _, by rw [boundsFault_eq, hout]; rfl, congrArg _ heq⟩

/-- R171: `CALL` faults exactly on a full stack. -/
theorem faultIn_call_none_iff {s : State} {nnn : Addr} {p : Nat} :
    (Instr.call nnn).faultIn s p = none ↔ s.sp.toNat ≠ 15 := by simp [Instr.faultIn]

/-- R171: `RET` faults exactly on an empty stack. -/
theorem faultIn_ret_none_iff {s : State} {p : Nat} : Instr.ret.faultIn s p = none ↔ s.sp.toNat ≠ 0 := by
  simp [Instr.faultIn]

/-- R171: whether an instruction faults does not depend on where it was fetched from. -/
theorem faultIn_none_of_none {p q : Nat} (h : i.faultIn s p = none) : i.faultIn s q = none := by
  cases i with
  | call => exact faultIn_call_none_iff.mpr (faultIn_call_none_iff.mp h)
  | ret => exact faultIn_ret_none_iff.mpr (faultIn_ret_none_iff.mp h)
  | _ => exact h

/-- The address a stack fault records is the one the instruction was fetched from (R171). -/
theorem stackFault_eq_halt (c : HaltCause) :
    s.stackFault c i = s.halt c (encode i) (BitVec.ofNat 13 s.fetchedFrom.toNat) := by
  rw [BitVec.ofNat_toNat]
  rfl

/-- Everything an instruction can do: its effect where the fault table gives no fault, and otherwise the halt sequence
with the table's cause and address. -/
theorem exec_cases :
    (i.faultIn s s.fetchedFrom.toNat = none ∧ exec i s = .next (i.effect s)) ∨
    ∃ c a, i.faultIn s s.fetchedFrom.toNat = some (c, a) ∧
      exec i s = .next (s.halt c (encode i) (BitVec.ofNat 13 a)) := by
  cases i with
  | call nnn =>
    by_cases h : s.sp = 15
    · exact .inr ⟨_, _, if_pos (congrArg BitVec.toNat h), (if_pos h).trans (congrArg _ (stackFault_eq_halt s _ _))⟩
    · exact .inl ⟨if_neg (fun e => h (BitVec.eq_of_toNat_eq e)), if_neg h⟩
  | ret =>
    by_cases h : s.sp = 0
    · exact .inr ⟨_, _, if_pos (congrArg BitVec.toNat h), (if_pos h).trans (congrArg _ (stackFault_eq_halt s _ _))⟩
    · exact .inl ⟨if_neg (fun e => h (BitVec.eq_of_toNat_eq e)), if_neg h⟩
  | drw x y n => exact guardAccess_by_fault_table s (.drw x y n) n.toNat ((Instr.drw x y n).effect s)
  | ldB x => exact guardAccess_by_fault_table s (.ldB x) 3 ((Instr.ldB x).effect s)
  | storeRegs x => exact guardAccess_by_fault_table s (.storeRegs x) (regCount x) ((Instr.storeRegs x).effect s)
  | loadRegs x => exact guardAccess_by_fault_table s (.loadRegs x) (regCount x) ((Instr.loadRegs x).effect s)
  | seImm | sneImm | seReg | sneReg | skp | sknp => exact .inl ⟨rfl, congrArg _ (s.skipIf_eq _)⟩
  | addReg x y => exact .inl ⟨rfl, exec_addReg x y s⟩
  | cls | jp | ldImm | addImm | ldReg | orReg | andReg | xorReg | subReg | shr | subnReg | shl | ldI | jpV0 | rnd
  | ldVxDt | ldVxK | ldDtVx | ldStVx | addI | ldF => exact .inl ⟨rfl, rfl⟩

end Faults

section Exec

variable {s t : State} {i : Instr} {p : Nat}

/-- An instruction that does not fault has its effect. -/
theorem exec_of_faultIn_none (h : i.faultIn s p = none) : exec i s = .next (i.effect s) := by
  rcases exec_cases s i with ⟨-, he⟩ | ⟨c, a, hf, -⟩
  · exact he
  · exact nomatch hf.symm.trans (faultIn_none_of_none s i h)

/-- R171, R172: an instruction that faults halts with the record of the fault table. -/
theorem exec_of_faultIn_some {c : HaltCause} {a : Nat} (h : i.faultIn s s.fetchedFrom.toNat = some (c, a)) :
    exec i s = .next (s.halt c (encode i) (BitVec.ofNat 13 a)) := by
  rcases exec_cases s i with ⟨hf, -⟩ | ⟨c', a', hf, he⟩
  · exact nomatch h.symm.trans hf
  · cases h.symm.trans hf
    exact he

/-- What an instruction answers is its effect, or the halt sequence. -/
theorem eq_effect_or_halt_of_exec (h : exec i s = .next t) :
    ((∀ p, i.faultIn s p = none) ∧ t = i.effect s) ∨ (∀ p, i.faultIn s p ≠ none) ∧ ∃ c w a, t = s.halt c w a := by
  rcases exec_cases s i with ⟨hf, he⟩ | ⟨c, a, hf, he⟩
  · cases he.symm.trans h
    exact .inl ⟨fun _ => faultIn_none_of_none s i hf, rfl⟩
  · cases he.symm.trans h
    exact .inr ⟨fun p hp => (nomatch hf.symm.trans (faultIn_none_of_none s i hp)), _, _, _, rfl⟩

/-- Every instruction answers a next state. -/
theorem exec_next (i : Instr) (s : State) : ∃ t, exec i s = .next t := by
  rcases exec_cases s i with ⟨-, he⟩ | ⟨_, _, -, he⟩
  · exact ⟨_, he⟩
  · exact ⟨_, he⟩

end Exec

/-! ### The effect, field by field -/

namespace Instr

variable (i : Instr) (s : State)

@[simp] theorem effect_agenda : (i.effect s).agenda = s.agenda := by cases i <;> rfl
@[simp] theorem effect_keyValid : (i.effect s).keyValid = s.keyValid := by cases i <;> rfl
@[simp] theorem effect_key : (i.effect s).key = s.key := by cases i <;> rfl
@[simp] theorem effect_haltCause : (i.effect s).haltCause = s.haltCause := by cases i <;> rfl
@[simp] theorem effect_haltWord : (i.effect s).haltWord = s.haltWord := by cases i <;> rfl
@[simp] theorem effect_haltAddr : (i.effect s).haltAddr = s.haltAddr := by cases i <;> rfl

/-- R126: the bytes stored go to I and up, as many as the instruction stores; most store none. -/
theorem effect_mem : ∃ bs, bs.length = i.stored ∧ (i.effect s).mem = s.mem.writeBytes s.idx.toNat bs := by
  cases i with
  | ldB x => exact ⟨_, decimalDigits_length _, rfl⟩
  | storeRegs x => exact ⟨_, s.regsUpTo_length x, rfl⟩
  | _ => exact ⟨[], rfl, rfl⟩

theorem effect_idx (h : i.writesIndex = false) : (i.effect s).idx = s.idx := by
  cases i with
  | ldI | addI | ldF => exact nomatch h
  | _ => rfl

theorem effect_dt (h : ∀ x, i ≠ .ldDtVx x) : (i.effect s).dt = s.dt := by
  cases i with
  | ldDtVx x => exact absurd rfl (h x)
  | _ => rfl

theorem effect_st (h : ∀ x, i ≠ .ldStVx x) : (i.effect s).st = s.st := by
  cases i with
  | ldStVx x => exact absurd rfl (h x)
  | _ => rfl

theorem effect_waitX (h : ∀ x, i ≠ .ldVxK x) : (i.effect s).waitX = s.waitX := by
  cases i with
  | ldVxK x => exact absurd rfl (h x)
  | _ => rfl

theorem effect_executor (h : ∀ x, i ≠ .ldVxK x) : (i.effect s).executor = s.executor := by
  cases i with
  | ldVxK x => exact absurd rfl (h x)
  | _ => rfl

theorem effect_executor_cases : (i.effect s).executor = s.executor ∨ (i.effect s).executor = .waitingForKey := by
  cases i with
  | ldVxK => exact .inr rfl
  | _ => exact .inl rfl

theorem effect_draws (h : ∀ x kk, i ≠ .rnd x kk) : (i.effect s).draws = s.draws := by
  cases i with
  | rnd x kk => exact absurd rfl (h x kk)
  | _ => rfl

/-- R184: no instruction reports a diagnosis on its own. -/
theorem effect_diags : (i.effect s).emitted.filter Output.isDiag = s.emitted.filter Output.isDiag := by
  cases i <;> rfl

end Instr

end Sys2Proof
end

