-- ==== Sys2Proof/Proofs/InstructionFrames.lean ====
section
/-!
PROOFS. What an instruction leaves alone, and where it leaves pc (spec 10_state.md R10 to R17; 20_memory.md R40;
60_exceptions.md R171). Each is the same of the instruction's effect and of the halt sequence, which together are
everything it can answer.
-/

namespace Sys2Proof

open Machine

/-! ### Registers -/

/-- R103 to R111: an instruction that writes a flag and then V[x] leaves the registers outside the two alone. -/
theorem getReg_flagThen_other (s : State) (c : Bool) (f : State → Byte) {x j : Nibble} (hx : j ≠ x) (hf : j ≠ 0xF) :
    (s.flagThen c x f).getReg j = s.getReg j := by
  rw [State.flagThen, State.getReg_setReg_other _ _ hx, State.setFlag_eq, State.getReg_setReg_other _ _ hf]

/-- R125: what loading registers from V0 on leaves in register `j`. -/
theorem getReg_setRegs_putRegs (s : State) (bs : List Byte) (j : Nibble) :
    (s.setRegs (putRegs s.v 0 bs)).getReg j = if h : j.toNat < bs.length then bs[j.toNat] else s.getReg j := by
  rw [State.getReg, State.setRegs_v, putRegs_getElem]
  simp [State.getReg]

/-- R10, R16: the effect of an instruction leaves every register alone that is no destination of it, VF where it is
written as a flag excepted. -/
theorem Instr.effect_getReg (i : Instr) (s : State) {j : Nibble} (hdest : i.destines j = false)
    (hflag : j = 0xF → i.writesFlag = false) : (i.effect s).getReg j = s.getReg j := by
  cases i with
  | addReg | subReg | shr | subnReg | shl =>
    exact getReg_flagThen_other s _ _ (of_decide_eq_false hdest) (fun hj => nomatch hflag hj)
  | drw => exact State.getReg_setReg_other (s.setPix _) _ (fun hj => nomatch hflag hj)
  | ldImm | addImm | ldVxDt | ldReg | orReg | andReg | xorReg =>
    exact State.getReg_setReg_other s _ (of_decide_eq_false hdest)
  | rnd => exact State.getReg_setReg_other s.countDraw _ (of_decide_eq_false hdest)
  | loadRegs x =>
    have hj := of_decide_eq_false hdest
    refine (getReg_setRegs_putRegs s _ j).trans (dif_neg ?_)
    rw [State.readAtI_length, regCount]
    omega
  | _ => rfl

/-- Settles O37: the effect writes the destinations and the flag alone, and a fault writes no register. -/
theorem registerFrame : Obligations.RegisterFrame := by
  intro i s t j h hdest hflag
  rcases eq_effect_or_halt_of_exec h with ⟨-, rfl⟩ | ⟨-, c, w, a, rfl⟩
  · exact i.effect_getReg s hdest hflag
  · rfl

/-! ### Memory and I -/

/-- Settles O44: the effect writes the stored bytes alone, and a fault writes none. -/
theorem memoryFrame : Obligations.MemoryFrame := by
  intro i s t a h ha
  rcases eq_effect_or_halt_of_exec h with ⟨-, rfl⟩ | ⟨-, c, w, p, rfl⟩
  · obtain ⟨bs, hlen, hmem⟩ := i.effect_mem s
    rw [hmem, Memory.read_writeBytes_outside _ _ (hlen ▸ ha)]
  · rfl

/-- Settles O45: the effect of an instruction that is none of the three writers keeps I, and so does a fault. -/
theorem indexFrame : Obligations.IndexFrame := by
  intro i s t h hidx
  rcases eq_effect_or_halt_of_exec h with ⟨-, rfl⟩ | ⟨-, c, w, a, rfl⟩
  · exact i.effect_idx s hidx
  · rfl

/-! ### Control state -/

/-- Settles O59: each field is kept by the effect but for its own writer, and by the halt sequence but for the latches
and the executor. -/
theorem controlStateFrame : Obligations.ControlStateFrame := by
  intro i s t h
  rcases eq_effect_or_halt_of_exec h with ⟨-, rfl⟩ | ⟨hfault, c, w, a, rfl⟩
  · exact ⟨i.effect_keyValid s, i.effect_key s, i.effect_agenda s, i.effect_dt s, i.effect_st s, i.effect_waitX s,
      i.effect_draws s, fun _ => ⟨i.effect_haltCause s, i.effect_haltWord s, i.effect_haltAddr s, i.effect_executor s⟩⟩
  · exact ⟨rfl, rfl, rfl, fun _ => rfl, fun _ => rfl, fun _ => rfl, fun _ => rfl, fun hnone => absurd hnone (hfault 0)⟩

/-! ### The program counter -/

section ProgramCounter

variable (s : State)

/-- R89, D2: a skip under a condition adds 2 to pc modulo 4096 where the condition holds. -/
theorem skipped_pc_toNat {c : Bool} {P : Prop} [Decidable P] (h : c = true ↔ P) :
    (s.skipped c).pc.toNat = if P then (s.pc.toNat + 2) % 4096 else s.pc.toNat := by
  cases c with
  | false => exact (if_neg (fun hP => nomatch h.mpr hP)).symm
  | true => exact (BitVec.toNat_add s.pc 2).trans (if_pos (h.mp rfl)).symm

/-- R14: pc after an instruction that does not fault. -/
theorem Instr.effect_pc (i : Instr) {p : Nat} (h : i.faultIn s p = none) : (i.effect s).pc.toNat = i.pcAfter s := by
  cases i with
  | call => exact (if_neg (faultIn_call_none_iff.mp h)).symm
  | ret => exact (if_neg (faultIn_ret_none_iff.mp h)).symm
  | seImm | seReg => exact skipped_pc_toNat s (beq_iff_eq.trans decide_eq_true_iff.symm)
  | sneImm | sneReg => exact skipped_pc_toNat s (bne_iff_ne.trans decide_eq_true_iff.symm)
  | skp | sknp => exact skipped_pc_toNat s Iff.rfl
  | jpV0 nnn => exact add_zextAddr_toNat nnn (s.getReg 0)
  | _ => rfl

/-- R14: an instruction that faults leaves pc past itself. -/
theorem pcAfter_of_faultIn_ne_none (i : Instr) {p : Nat} (h : i.faultIn s p ≠ none) : i.pcAfter s = s.pc.toNat := by
  cases i with
  | call => exact if_pos (not_not.mp (mt faultIn_call_none_iff.mpr h))
  | ret => exact if_pos (not_not.mp (mt faultIn_ret_none_iff.mpr h))
  | drw | ldB | storeRegs | loadRegs => rfl
  | _ => exact absurd rfl h

end ProgramCounter

/-- Settles O27: the table is read off the effect, and off the fault, which keeps the post-fetch pc. -/
theorem programCounterTable : Obligations.ProgramCounterTable := by
  intro i s
  obtain ⟨t, h⟩ := exec_next i s
  refine ⟨t, h, ?_⟩
  rcases eq_effect_or_halt_of_exec h with ⟨hnone, rfl⟩ | ⟨hfault, c, w, a, rfl⟩
  · exact i.effect_pc s (hnone 0)
  · exact (pcAfter_of_faultIn_ne_none s i (hfault 0)).symm

/-! ### Instructions that only skip -/

section Skips

variable {s : State} {i : Instr} {c : Bool} {P : Prop} [Decidable P]

/-- R89: an instruction whose effect is a skip changes pc alone, and pc as its condition says. -/
theorem exec_skip (hnone : i.faultIn s 0 = none) (heffect : i.effect s = s.skipped c) (hc : c = true ↔ P) :
    ∃ t, exec i s = .next t ∧ OnlyPc s t ∧ t.pc.toNat = if P then (s.pc.toNat + 2) % 4096 else s.pc.toNat :=
  ⟨_, (exec_of_faultIn_none hnone).trans (congrArg _ heffect), onlyPc_setPc s _, skipped_pc_toNat s hc⟩

end Skips

/-- Settles O21: each of the four is a skip under its comparison. -/
theorem skipsWrapAround : Obligations.SkipsWrapAround :=
  fun _ _ _ _ => ⟨exec_skip rfl rfl beq_iff_eq, exec_skip rfl rfl bne_iff_ne, exec_skip rfl rfl beq_iff_eq,
    exec_skip rfl rfl bne_iff_ne⟩

end Sys2Proof
end

