-- ==== Sys2Proof/Proofs/Cycle.lean ====
section
/-!
PROOFS. The execution cycle and the order of events (spec 40_control_transfer.md R80; 60_exceptions.md R170 to R175,
section 4; 20_memory.md R50, R51). A cycle with a row in the fault table halts with that row's record; any other cycle
has the effect of the instruction it decodes. With the steps of the other agents that is everything a step can do.
-/

namespace Sys2Proof

open Machine

/-! ### The cycle and the fault table -/

section Cycle

variable {s t : State} {i : Instr}

/-- R80: the advance of pc leaves what a fault depends on, and `p2 - 2` is the address fetched from. -/
theorem faultIn_advance (s : State) (i : Instr) :
    i.faultIn s.advance s.advance.fetchedFrom.toNat = i.faultIn s s.pc.toNat := by
  rw [State.fetchedFrom, State.advance_eq, State.setPc_pc, BitVec.add_sub_cancel]
  cases i <;> rfl

/-- D2: the table's pc is the post-fetch pc. -/
theorem ofNat_pc_add_two_mod (s : State) : BitVec.ofNat 12 ((s.pc.toNat + 2) % 4096) = s.pc + 2 :=
  BitVec.eq_of_toNat_eq (by simp [BitVec.toNat_add])

/-- The halt sequence after the advance of pc is what a row with the post-fetch pc says (R171, R172). -/
theorem advance_halt_eq_haltedBy (s : State) (c : HaltCause) (w : InsnWord) (a : Nat) :
    s.advance.halt c w (BitVec.ofNat 13 a) = s.haltedBy ⟨c, w, a, (s.pc.toNat + 2) % 4096⟩ := by
  rw [State.haltedBy, ofNat_pc_add_two_mod]
  rfl

/-- The fault table's row for a cycle at 0xFFF (R171). -/
theorem cycleFault_of_pc_last (hp : s.pc = 0xFFF) : s.cycleFault = some ⟨.addressFault, 0x0000, 0x1000, 0xFFF⟩ :=
  if_pos hp

/-- The fault table's row for an unmatched word (R171). -/
theorem cycleFault_of_unmatched (hp : s.pc ≠ 0xFFF) {w : InsnWord} (hd : decodeWord s.fetchWord = .unmatched w) :
    s.cycleFault = some ⟨.unknownOpcode, s.fetchWord, s.pc.toNat, (s.pc.toNat + 2) % 4096⟩ := by
  rw [State.cycleFault, if_neg hp, hd]

/-- The fault table's row for an instruction that faults (R171). -/
theorem cycleFault_of_fault (hp : s.pc ≠ 0xFFF) (hd : decodeWord s.fetchWord = .instr i) {c : HaltCause} {a : Nat}
    (hf : i.faultIn s s.pc.toNat = some (c, a)) :
    s.cycleFault = some ⟨c, s.fetchWord, a, (s.pc.toNat + 2) % 4096⟩ := by
  simp only [State.cycleFault, if_neg hp, hd, hf]

/-- The fault table has no row for a cycle whose instruction does not fault (R171). -/
theorem cycleFault_of_no_fault (hp : s.pc ≠ 0xFFF) (hd : decodeWord s.fetchWord = .instr i)
    (hf : i.faultIn s s.pc.toNat = none) : s.cycleFault = none := by
  simp only [State.cycleFault, if_neg hp, hd, hf]

/-- Everything a cycle can do, by the fault table (R80, R171). -/
theorem runCycle_by_fault_table (s : State) :
    (∃ r, s.cycleFault = some r ∧ s.runCycle = .next (s.haltedBy r)) ∨
    (s.cycleFault = none ∧ ∃ i, decodeWord s.fetchWord = .instr i ∧ i.faultIn s.advance s.pc.toNat = none ∧
      s.runCycle = .next (i.effect s.advance)) := by
  rcases s.runCycle_cases with ⟨hp, hrun⟩ | ⟨hp, hd, hrun⟩ | ⟨hp, i, hd, hrun⟩
  · refine .inl ⟨_, cycleFault_of_pc_last hp, ?_⟩
    rw [hrun, State.fetchFault, State.haltedBy, State.halt, hp]
    rfl
  · refine .inl ⟨_, cycleFault_of_unmatched hp hd, ?_⟩
    rw [hrun, ← advance_halt_eq_haltedBy, BitVec.ofNat_toNat, State.unknownOpcode]
  · rcases exec_cases s.advance i with ⟨hf, he⟩ | ⟨c, a, hf, he⟩
    · refine .inr ⟨cycleFault_of_no_fault hp hd ((faultIn_advance s i).symm.trans hf), i, hd, ?_, hrun.trans he⟩
      exact faultIn_none_of_none _ i hf
    · refine .inl ⟨_, cycleFault_of_fault hp hd ((faultIn_advance s i).symm.trans hf), ?_⟩
      rw [hrun, he, encode_of_decodeWord hd, advance_halt_eq_haltedBy]

end Cycle

/-! ### Everything a step can do -/

section Step

variable {s t : State}

/-- The state a step's event acts on: the event is consumed (R51). -/
def Machine.State.consumed (s : State) : State := s.setAgenda s.agenda.tail

/-- The fault table does not look at the agenda. -/
theorem cycleFault_consumed (s : State) : s.consumed.cycleFault = s.cycleFault := rfl

/-- A step that runs a faulting cycle. -/
theorem step_of_cycleFault {r : FaultRecord} (hcyc : s.cycles) (hr : s.cycleFault = some r) :
    step s = .next (s.consumed.haltedBy r) := by
  rw [step_of_cycles hcyc]
  rcases runCycle_by_fault_table s.consumed with ⟨r', hr', hrun⟩ | ⟨hnone, -⟩
  · rw [cycleFault_consumed, hr] at hr'
    cases hr'
    exact hrun
  · rw [cycleFault_consumed, hr] at hnone
    cases hnone

/-- Everything the step from a state can lead to: the event is consumed, and then a cycle faults or has its
instruction's effect, an execution tick passes, or another agent's event is performed. -/
inductive Machine.State.StepsTo (s : State) : State → Prop where
  | fault {r : FaultRecord} (hcyc : s.cycles) (hfault : s.cycleFault = some r) : s.StepsTo (s.consumed.haltedBy r)
  | effect {i : Instr} (hcyc : s.cycles) (hfault : s.cycleFault = none) (hdec : decodeWord s.fetchWord = .instr i)
      (hnone : i.faultIn s.consumed.advance s.pc.toNat = none) : s.StepsTo (i.effect s.consumed.advance)
  | idle (hup : s.upcoming = .execTick) (hrun : s.executor ≠ .running) : s.StepsTo s.consumed
  | timerTick (hup : s.upcoming = .timerTick) : s.StepsTo s.consumed.timerTick
  | press {k : Nibble} (hup : s.upcoming = .press k) : s.StepsTo (s.consumed.press k)
  | release (hup : s.upcoming = .release) : s.StepsTo s.consumed.release

/-- Every step answers a next state, one of those. -/
theorem step_stepsTo (s : State) : ∃ t, step s = .next t ∧ s.StepsTo t := by
  rcases step_cases s with ⟨hcyc, hstep⟩ | ⟨hup, hrun, hstep⟩ | ⟨hup, hstep⟩ | ⟨k, hup, hstep⟩ | ⟨hup, hstep⟩
  · rcases runCycle_by_fault_table s.consumed with ⟨r, hr, hrun⟩ | ⟨hnone, i, hd, hf, hrun⟩
    · exact ⟨_, hstep.trans hrun, .fault hcyc hr⟩
    · exact ⟨_, hstep.trans hrun, .effect hcyc hnone hd hf⟩
  · exact ⟨_, hstep, .idle hup hrun⟩
  · exact ⟨_, hstep, .timerTick hup⟩
  · exact ⟨_, hstep, .press hup⟩
  · exact ⟨_, hstep, .release hup⟩

theorem stepsTo_of_step (h : step s = .next t) : s.StepsTo t := by
  obtain ⟨u, hu, hcases⟩ := step_stepsTo s
  cases hu.symm.trans h
  exact hcases

/-- R80, D24: outside `Running` an execution tick does nothing. -/
theorem execTick_of_not_running (h : s.executor ≠ .running) : s.execTick = .next s := by
  unfold State.execTick
  split
  · next he => exact absurd he h
  · rfl
  · rfl

/-- The step at an execution tick outside `Running` (R80). -/
theorem step_of_idle (hup : s.upcoming = .execTick) (hrun : s.executor ≠ .running) : step s = .next s.consumed := by
  rw [step_eq, hup]
  exact execTick_of_not_running hrun

end Step

/-- Settles O6: the two bytes at pc are the word fetched, and the cycle executes what it decodes to. -/
theorem stepRunsDecodedInstruction : Obligations.StepRunsDecodedInstruction := by
  intro s i hcyc hp _ hbytes
  have hdec : decodeWord s.consumed.fetchWord = .instr i := congrArg Prod.fst (Option.some.inj hbytes)
  rw [step_of_cycles hcyc]
  rcases s.consumed.runCycle_cases with ⟨hlast, -⟩ | ⟨-, hun, -⟩ | ⟨-, j, hj, hrun⟩
  · exact absurd hlast hp
  · cases hun.symm.trans hdec
  · cases hj.symm.trans hdec
    exact hrun

/-- Settles O8: the tick passes. -/
theorem tickWithoutRunningChangesNothing : Obligations.TickWithoutRunningChangesNothing :=
  fun _ hup hrun => step_of_idle hup hrun

/-- Settles O28: the jump writes back the pc it was fetched from, and with no event listed none is consumed. -/
theorem jumpToSelfIsFixedPoint : Obligations.JumpToSelfIsFixedPoint := by
  intro s hagenda hrun hp hdec
  have hcyc : s.cycles := ⟨by rw [State.upcoming, hagenda]; rfl, hrun⟩
  have hsame : s.consumed = s := by rw [State.consumed, hagenda, List.tail_nil, ← hagenda]; rfl
  have hfault : s.cycleFault = none := cycleFault_of_no_fault hp hdec rfl
  obtain ⟨t, hstep, hcases⟩ := step_stepsTo s
  rw [hstep]
  cases hcases with
  | fault _ hr => exact nomatch hfault.symm.trans hr
  | effect _ _ hj _ =>
    cases hj.symm.trans hdec
    rw [hsame]
    rfl
  | idle _ hno => exact absurd hrun hno
  | timerTick hup | press hup | release hup => exact nomatch hcyc.1.symm.trans hup

/-- Settles O7: the table's row is the record with which the cycle halts, on the state with the event consumed. -/
theorem faultingCycleHaltsPrecisely : Obligations.FaultingCycleHaltsPrecisely :=
  fun _ _ hcyc hr => step_of_cycleFault hcyc hr

/-! ### The executor's states -/

/-- R181, R182: a press ends a key wait and keeps every other executor state. -/
theorem press_executor (s : State) (k : Nibble) :
    (s.press k).executor = if s.executor = .waitingForKey then .running else s.executor := by
  rcases s.press_cases k with ⟨hwait, heq⟩ | ⟨hwait, heq⟩
  · rw [heq, if_pos hwait, State.endKeyWait_executor]
  · rw [heq, if_neg hwait, State.keyDown_executor]

/-- R154: of the effects only that of `LD Vx, K` sets the executor. -/
theorem effect_executor_of_decode {s u : State} {i : Instr} (hdec : decodeWord s.fetchWord = .instr i) :
    (i.effect u).executor = if s.aboutToWait then .waitingForKey else u.executor := by
  rw [State.aboutToWait, hdec]
  cases i <;> rfl

/-- Settles O9: each cell of the table is one thing the step can lead to. -/
theorem executorStateMachine : Obligations.ExecutorStateMachine := by
  refine ⟨rfl, fun s => ?_⟩
  obtain ⟨t, hstep, hcases⟩ := step_stepsTo s
  refine ⟨t, hstep, ?_⟩
  cases hcases with
  | fault hcyc hfault =>
    rw [hcyc.2, hcyc.1, hfault]
    rfl
  | effect hcyc hfault hdec _ =>
    have hrun : s.consumed.advance.executor = .running := hcyc.2
    rw [effect_executor_of_decode hdec, hrun, hcyc.2, hcyc.1, hfault]
    rfl
  | idle hup hrun =>
    have hkept : s.consumed.executor = s.executor := rfl
    rw [hkept, hup]
    cases he : s.executor with
    | running => exact absurd he hrun
    | waitingForKey | halted => rfl
  | press hup =>
    have hkept : s.consumed.executor = s.executor := rfl
    rw [press_executor, hkept, hup]
    cases s.executor <;> rfl
  | timerTick hup | release hup =>
    rw [hup]
    change s.executor = _
    cases s.executor <;> rfl

/-! ### The events to come -/

/-- A press leaves the events to come alone. -/
theorem press_agenda (s : State) (k : Nibble) : (s.press k).agenda = s.agenda := by
  rcases s.press_cases k with ⟨-, heq⟩ | ⟨-, heq⟩
  · rw [heq, State.endKeyWait_agenda, State.keyDown_agenda]
  · rw [heq, State.keyDown_agenda]

/-- Settles O10: the event is consumed first, and nothing a step can do touches those that are left. -/
theorem everyStepConsumesOneEvent : Obligations.EveryStepConsumesOneEvent := by
  intro s
  obtain ⟨t, hstep, hcases⟩ := step_stepsTo s
  refine ⟨t, hstep, ?_⟩
  cases hcases with
  | effect => exact Instr.effect_agenda _ _
  | press => exact press_agenda _ _
  | fault | idle | timerTick | release => rfl

/-- Settles O11: from `Halted` no cycle runs, and the other agents write the timers and the key slot alone. -/
theorem haltedIsFinal : Obligations.HaltedIsFinal := by
  intro s hhalted
  obtain ⟨t, hstep, hcases⟩ := step_stepsTo s
  refine ⟨t, hstep, ?_⟩
  cases hcases with
  | fault hcyc _ | effect hcyc _ _ _ => exact nomatch hhalted.symm.trans hcyc.2
  | @press k hup =>
    rcases s.consumed.press_cases k with ⟨hwait, -⟩ | ⟨-, heq⟩
    · exact nomatch hhalted.symm.trans hwait
    · rw [heq]
      exact ⟨rfl, fun _ => rfl⟩
  | idle | timerTick | release => exact ⟨rfl, fun _ => rfl⟩

end Sys2Proof
end

