-- ==== Sys2Proof/Proofs/Invariants.lean ====
section
/-!
PROOFS. What every step keeps, and that reset has it (spec 60_exceptions.md section 4; 20_memory.md R42, R44;
10_state.md R20, R32): the halt record, the memory's canonical form, and slot 0 of the call stack. Each is kept by a
fault, by an instruction's effect and by every other agent's event, and that is everything a step can do.
-/

namespace Sys2Proof

open Machine

/-! ### The halt record -/

section HaltRecord

variable {s t : State}

/-- Outside `Halted` the record is empty, in `Running` and `WaitingForKey` alike. -/
theorem haltInv_iff_of_not_halted (h : s.executor ≠ .halted) :
    HaltInv s ↔ s.haltCause = 0 ∧ s.haltWord = 0 ∧ s.haltAddr = 0 ∧ s.emitted.filter Output.isDiag = [] := by
  unfold HaltInv
  split
  · next he => exact absurd he h
  · rfl
  · rfl

/-- The record is kept where the latches and the reports are, and `Halted` is neither entered nor left. -/
theorem HaltInv.congr (h : HaltInv s) (hexec : t.executor = s.executor ∨ s.executor ≠ .halted ∧ t.executor ≠ .halted)
    (hcause : t.haltCause = s.haltCause) (hword : t.haltWord = s.haltWord) (haddr : t.haltAddr = s.haltAddr)
    (hdiags : t.emitted.filter Output.isDiag = s.emitted.filter Output.isDiag) : HaltInv t := by
  rcases hexec with hsame | ⟨hs, ht⟩
  · unfold HaltInv at h ⊢
    rwa [hsame, hcause, hword, haddr, hdiags]
  · rw [haltInv_iff_of_not_halted hs] at h
    rwa [haltInv_iff_of_not_halted ht, hcause, hword, haddr, hdiags]

/-- R172, R185: the halt sequence makes the record: its cause is in the latch, and its report is the first. -/
theorem HaltInv.haltedBy (h : HaltInv s) (hs : s.executor ≠ .halted) (r : FaultRecord) : HaltInv (s.haltedBy r) := by
  obtain ⟨-, -, -, hnone⟩ := (haltInv_iff_of_not_halted hs).mp h
  exact ⟨⟨r.cause, rfl⟩, congrArg (List.cons _) hnone⟩

/-- R181, R182: a press writes no latch, reports nothing, and neither enters nor leaves `Halted`. -/
theorem HaltInv.press (h : HaltInv s) (k : Nibble) : HaltInv (s.press k) := by
  rcases s.press_cases k with ⟨hwait, heq⟩ | ⟨-, heq⟩
  · rw [heq]
    exact h.congr (.inr ⟨by rw [hwait]; decide, nofun⟩) rfl rfl rfl rfl
  · rw [heq]
    exact h.congr (.inl rfl) rfl rfl rfl rfl

/-- The effect of an instruction makes no record (R170). -/
theorem HaltInv.effect (h : HaltInv s) (hrun : s.executor = .running) (i : Instr) : HaltInv (i.effect s) := by
  refine h.congr (.inr ⟨by rw [hrun]; decide, ?_⟩) (i.effect_haltCause s) (i.effect_haltWord s) (i.effect_haltAddr s)
    (i.effect_diags s)
  rcases i.effect_executor_cases s with he | he
  · rw [he, hrun]
    decide
  · rw [he]
    decide

end HaltRecord

/-- Settles O12: a fault makes the record where there is none, and no other step touches it. -/
theorem everyStepKeepsHaltRecord : Obligations.EveryStepKeepsHaltRecord := by
  intro s t hinv hstep
  have hconsumed : HaltInv s.consumed := hinv
  cases stepsTo_of_step hstep with
  | fault hcyc _ => exact hconsumed.haltedBy (fun he => nomatch hcyc.2.symm.trans he) _
  | effect hcyc _ _ _ =>
    exact HaltInv.effect (s := s.consumed.advance) (hconsumed.congr (.inl rfl) rfl rfl rfl rfl) hcyc.2 _
  | press => exact hconsumed.press _
  | idle => exact hconsumed
  | timerTick | release => exact hconsumed.congr (.inl rfl) rfl rfl rfl rfl

/-! ### The memory's form -/

/-- R181: a press writes no memory. -/
theorem press_mem (s : State) (k : Nibble) : (s.press k).mem = s.mem := by
  rcases s.press_cases k with ⟨-, heq⟩ | ⟨-, heq⟩
  · rw [heq, State.endKeyWait_mem, State.keyDown_mem]
  · rw [heq, State.keyDown_mem]

/-- Settles O13: a step writes memory as an effect's store alone, and writing bytes keeps the form. -/
theorem everyStepKeepsMemoryForm : Obligations.EveryStepKeepsMemoryForm := by
  intro s t hinv hstep
  unfold MemoryInv at hinv ⊢
  cases stepsTo_of_step hstep with
  | @effect i =>
    obtain ⟨bs, -, hmem⟩ := i.effect_mem s.consumed.advance
    rw [hmem]
    exact Memory.writeBytes_wf _ bs hinv
  | press =>
    rw [press_mem]
    exact hinv
  | fault | idle | timerTick | release => exact hinv

/-- Settles O14: at reset nothing has been reported and no byte differs from the reset contents. -/
theorem resetMeetsInvariants : Obligations.ResetMeetsInvariants := ⟨⟨rfl, rfl, rfl, rfl⟩, rfl⟩

/-! ### Slot 0 of the call stack -/

/-- R83, D4: a push that the fault table lets through goes to slot `sp + 1`, which is not slot 0. -/
theorem Instr.effect_stack_zero (i : Instr) (s : State) {p : Nat} (h : i.faultIn s p = none) :
    (i.effect s).stack[0] = s.stack[0] := by
  cases i with
  | call nnn =>
    have hsp : s.sp.toNat ≠ 15 := faultIn_call_none_iff.mp h
    exact s.push_slot s.pc 0 (by bv_omega)
  | _ => rfl

/-- R181: a press leaves the call stack alone. -/
theorem press_stack (s : State) (k : Nibble) : (s.press k).stack = s.stack := by
  rcases s.press_cases k with ⟨-, heq⟩ | ⟨-, heq⟩
  · rw [heq, State.endKeyWait_stack, State.keyDown_stack]
  · rw [heq, State.keyDown_stack]

/-- Settles O26: only a `CALL` that does not fault writes a slot, and that slot is not slot 0. -/
theorem stackSlotZeroIsNeverWritten : Obligations.StackSlotZeroIsNeverWritten := by
  intro s t hstep
  cases stepsTo_of_step hstep with
  | @effect i _ _ _ hnone => exact i.effect_stack_zero _ hnone
  | @press k => exact congrArg (·[0]) (press_stack s.consumed k)
  | fault | idle | timerTick | release => rfl

end Sys2Proof
end

