-- ==== Sys2Proof/Proofs/Construction.lean ====
section
/-!
PROOFS. Reset and construction (spec 10_state.md R26, R32; 70_reset_and_hazards.md R200 to R203). The memory of a new
machine is two writes of bytes over the reset contents: the font from address 0, then the image from 0x200.
-/

namespace Sys2Proof

open Machine

/-! ### Reset -/

/-- R26, D10: the reset contents above the font are zero. -/
theorem initialByte_above_font {a : Nat} (h : 0x50 ≤ a) : Memory.initialByte a = 0 :=
  List.getD_eq_default defaultFont 0 h

/-- R10: every register is zero at reset. -/
theorem getReg_reset (x : Nibble) : State.reset.getReg x = 0 := Vector.getElem_replicate x.isLt

/-- Settles O15: the register file and the stack are filled with 0, the grid is blank, and memory is the reset
contents. -/
theorem resetValues : Obligations.ResetValues :=
  ⟨rfl, rfl, getReg_reset, rfl, rfl, rfl, fun j => Vector.getElem_replicate j.isLt, rfl, rfl, rfl, rfl, rfl,
    Grid.blank_lit, rfl, rfl, rfl, fun _ => initialByte_above_font⟩

/-! ### The image construction loads -/

section LoadImage

variable (font : Vector Byte 80) (bs : List Byte)

/-- The memory with the font alone has the canonical form. -/
theorem fontMemory_wf : (Memory.writeBytes State.reset.mem 0 font.toList).wf = true :=
  Memory.writeBytes_wf 0 font.toList rfl

theorem loadImage_wf : (loadImage font bs).wf = true :=
  Memory.writeBytes_wf Config.progBase bs (fontMemory_wf font)

/-- R201: the image stands at 0x200 and up. -/
theorem loadImage_read_image (hfits : bs.length ≤ 0xE00) {j : Nat} (h : j < bs.length) :
    (loadImage font bs).read (0x200 + j) = bs[j] :=
  Memory.read_writeBytes_inside bs (fontMemory_wf font) (by rw [Config.memSize, Config.progBase]; omega) h

/-- R26, R27: the font stands at 0 and up; the image does not reach it. -/
theorem loadImage_read_font {j : Nat} (h : j < 80) : (loadImage font bs).read j = font[j] := by
  have hlen : j < font.toList.length := by rwa [Vector.length_toList]
  rw [loadImage, Memory.read_writeBytes_outside _ bs (.inl (by rw [Config.progBase]; omega)),
    ← Vector.getElem_toList hlen]
  conv_lhs => rw [← Nat.zero_add j]
  exact Memory.read_writeBytes_inside font.toList rfl (by rw [Vector.length_toList]; decide) hlen

/-- D10, D22: what is neither font nor image is zero. -/
theorem loadImage_read_zero {a : Nat} (hfont : 0x50 ≤ a) (himage : a < 0x200 ∨ 0x200 + bs.length ≤ a) :
    (loadImage font bs).read a = 0 := by
  rw [loadImage, Memory.read_writeBytes_outside _ bs himage,
    Memory.read_writeBytes_outside _ font.toList (.inr (by rw [Vector.length_toList]; omega))]
  exact initialByte_above_font hfont

end LoadImage

/-! ### Construction -/

section Construct

variable {font : Vector Byte 80} {bs : List Byte}

/-- R202: the images construction accepts, in plain numbers. -/
theorem wellFormed_some_iff : Image.wellFormed (some bs) = true ↔ 1 ≤ bs.length ∧ bs.length ≤ 0xE00 := by
  simp [Image.wellFormed, Image.present, Image.nonEmpty, Image.fits]

/-- R201: an accepted image gives the reset state with the image loaded. -/
theorem construct_of_accepted (h1 : 1 ≤ bs.length) (hfits : bs.length ≤ 0xE00) :
    construct font (some bs) = .ok { State.reset with mem := loadImage font bs } :=
  if_pos (wellFormed_some_iff.mpr ⟨h1, hfits⟩)

/-- R202: an image that is absent, empty or too long is not well formed, and then there is no machine. -/
theorem construct_of_refused {rom : Image} (h : rom.wellFormed = false) : construct font rom = .invalidRom :=
  if_neg (by rw [h]; decide)

end Construct

/-- Settles O16: construction asks for a well-formed image, and loads it over the font over the reset contents. -/
theorem constructionLoadsImage : Obligations.ConstructionLoadsImage := by
  intro font rom
  constructor
  · rintro (rfl | rfl | ⟨bs, rfl, hlong⟩)
    · exact construct_of_refused rfl
    · exact construct_of_refused rfl
    · refine construct_of_refused (Bool.eq_false_iff.mpr fun hok => ?_)
      exact absurd (wellFormed_some_iff.mp hok).2 (by omega)
  · rintro bs rfl h1 hfits
    exact ⟨_, construct_of_accepted h1 hfits, rfl, loadImage_wf font bs, fun j h => loadImage_read_font font bs h,
      fun a h50 h200 => loadImage_read_zero font bs h50 (.inl h200), fun j h => loadImage_read_image font bs hfits h,
      fun a h => loadImage_read_zero font bs (by omega) (.inr h)⟩

/-- D22: the byte after the first of an image is its second, or zero where it has none. -/
theorem loadImage_read_second (font : Vector Byte 80) (b : Byte) (bs : List Byte) (hfits : (b :: bs).length ≤ 0xE00) :
    (loadImage font (b :: bs)).read (0x200 + 1) = bs.headD 0 := by
  cases bs with
  | nil => exact loadImage_read_zero font [b] (by decide) (.inr (Nat.le_refl _))
  | cons c cs => exact loadImage_read_image font (b :: c :: cs) hfits (by simp)

/-- Settles O17: the new machine runs at 0x200, where the image begins. -/
theorem firstFetchIsImageStart : Obligations.FirstFetchIsImageStart := by
  intro font b bs s h
  by_cases hok : Image.wellFormed (some (b :: bs)) = true
  · obtain ⟨h1, hfits⟩ := wellFormed_some_iff.mp hok
    cases (construct_of_accepted h1 hfits).symm.trans h
    refine ⟨⟨rfl, rfl⟩, rfl, ?_⟩
    have hfirst : (loadImage font (b :: bs)).read 0x200 = b :=
      loadImage_read_image font (b :: bs) hfits (j := 0) (by simp)
    have hsecond := loadImage_read_second font b bs hfits
    exact congrArg₂ wordOfBytes hfirst hsecond
  · cases (construct_of_refused (Bool.eq_false_iff.mpr hok)).symm.trans h

end Sys2Proof
end

