-- ==== Sys2Proof/Proofs/CallReturn.lean ====
section
/-!
PROOFS. `CALL` and `RET` where they do not fault (spec 40_control_transfer.md R81, R83; 10_state.md R20, R21). A call
pushes the post-fetch pc and jumps; a return pops; a return after a call pops what the call pushed.
-/

namespace Sys2Proof

open Machine

section CallReturn

variable {s : State}

/-- R83: a call with room on the stack. -/
theorem exec_call (nnn : Addr) (h : s.sp.toNat < 15) : exec (.call nnn) s = .next ((s.push s.pc).setPc nnn) :=
  exec_of_faultIn_none (p := 0) (faultIn_call_none_iff.mpr (by omega))

/-- R81: a return with an address held. -/
theorem exec_ret (h : 0 < s.sp.toNat) : exec .ret s = .next s.pop :=
  exec_of_faultIn_none (p := 0) (faultIn_ret_none_iff.mpr (by omega))

/-- R83: with room on the stack `sp + 1` does not wrap. -/
theorem sp_add_one_toNat (h : s.sp.toNat < 15) : (s.sp + 1).toNat = s.sp.toNat + 1 := by bv_omega

end CallReturn

/-- Settles O22: the pushed address is on top, and a push writes that one slot. -/
theorem callPushesReturnAddress : Obligations.CallPushesReturnAddress :=
  fun nnn s h => ⟨_, exec_call nnn h, rfl, sp_add_one_toNat h, s.top_push s.pc, fun j hj => s.push_slot s.pc j hj, rfl,
    fun _ => rfl⟩

/-- Settles O23: a pop writes pc and sp alone, and with an address held `sp - 1` does not wrap. -/
theorem returnPopsReturnAddress : Obligations.ReturnPopsReturnAddress := by
  refine fun s h => ⟨_, exec_ret h, rfl, ?_, rfl, fun _ => rfl⟩
  rw [State.pop_sp]
  bv_omega

/-- R81, R83: a pop undoes a push and a jump, but for the slot pushed. -/
theorem pop_push (s : State) (nnn : Addr) :
    ((s.push s.pc).setPc nnn).pop = { s with stack := (s.push s.pc).stack } := by
  have hsp : s.sp + 1 - 1 = s.sp := BitVec.add_sub_cancel _ _
  have htop : ((s.push s.pc).setPc nnn).top = s.pc := s.top_push s.pc
  rw [State.pop, htop, State.setPc_sp, State.push_sp, hsp]
  rfl

/-- Settles O24: the return pops what the call pushed. -/
theorem callThenReturnRestores : Obligations.CallThenReturnRestores := by
  intro nnn s h
  have hheld : 0 < ((s.push s.pc).setPc nnn).sp.toNat := by
    rw [State.setPc_sp, State.push_sp, sp_add_one_toNat h]
    omega
  refine ⟨_, _, exec_call nnn h, exec_ret hheld, ?_⟩
  rw [pop_push]
  exact ⟨rfl, rfl, rfl, fun j hj => s.push_slot s.pc j hj⟩

end Sys2Proof
end

