-- ==== Sys2Proof/Proofs/SubtractShift.lean ====
section
/-!
PROOFS. Subtraction, shifts and the random load (spec 41_load_alu.md R108 to R112). The first four write a flag of the
old registers to VF and then V[x] from the registers as they are after it (D3): away from VF the operands are the old
ones, and where VF is an operand the flag is.
-/

namespace Sys2Proof

open Machine

/-! ### A flag and then V[x] -/

section FlagThen

variable (s : State) (c : Bool) {x y : Nibble} (f : State → Byte)

theorem onlyRegisters_flagThen : OnlyRegisters (fun j => j = x ∨ j = 0xF) s (s.flagThen c x f) :=
  onlyRegisters_setFlag_setReg s c x _

/-- Where x is F, VF is the one register written. -/
theorem onlyRegisters_flagThen_vf : OnlyRegisters (· = 0xF) s (s.flagThen c 0xF f) := by
  have h := onlyRegisters_flagThen s c (x := 0xF) f
  simpa only [or_self] using h

theorem getReg_flagThen_same : (s.flagThen c x f).getReg x = f (s.setFlag c) := State.getReg_setReg_same _ x _

theorem getReg_flagThen_vf (hx : x ≠ 0xF) : (s.flagThen c x f).getReg 0xF = flagByte c :=
  getReg_vf_setFlag_setReg s c _ hx

/-- D3: a register other than VF is read as it was before the flag. -/
theorem getReg_setFlag_other (hy : y ≠ 0xF) : (s.setFlag c).getReg y = s.getReg y := by
  rw [State.setFlag_eq, State.getReg_setReg_other _ _ hy]

/-- D3: VF is read as the flag just written. -/
theorem getReg_setFlag_vf : (s.setFlag c).getReg 0xF = flagByte c := by
  rw [State.setFlag_eq, State.getReg_setReg_same]

end FlagThen

/-! ### Flags and bytes as numbers -/

section Bytes

variable (a b : Byte)

/-- R108: the wrapped difference. -/
theorem sub_toNat : (a - b).toNat = (a.toNat + 256 - b.toNat) % 256 := by bv_omega

/-- R16: the flag of a comparison as a number. -/
theorem flagByte_decide_toNat (p : Prop) [Decidable p] : (flagByte (decide p)).toNat = if p then 1 else 0 := by
  rw [flagByte_decide]
  split <;> rfl

/-- R108, R110: the flag of a subtraction. -/
theorem flagByte_strictlyGreater : flagByte (strictlyGreater a b) = if b.toNat < a.toNat then 1 else 0 :=
  flagByte_decide _

theorem flagByte_strictlyGreater_toNat :
    (flagByte (strictlyGreater a b)).toNat = if b.toNat < a.toNat then 1 else 0 :=
  flagByte_decide_toNat _

/-- R109: the bit that a right shift loses. -/
theorem flagByte_lowBit_toNat : (flagByte (lowBit a)).toNat = a.toNat % 2 := by
  rw [lowBit, BitVec.getLsbD, Nat.testBit_zero, flagByte_decide_toNat]
  split <;> omega

/-- R111: the bit that a left shift loses. -/
theorem flagByte_highBit_toNat : (flagByte (highBit a)).toNat = a.toNat / 128 := by
  have := a.isLt
  rw [highBit, BitVec.getLsbD, Nat.testBit_eq_decide_div_mod_eq, flagByte_decide_toNat]
  split <;> omega

theorem shiftRight_one_toNat : (a >>> 1).toNat = a.toNat / 2 := by
  rw [BitVec.toNat_ushiftRight, Nat.shiftRight_eq_div_pow, pow_one]

theorem shiftLeft_one_toNat : (a <<< 1).toNat = a.toNat * 2 % 256 := by
  rw [BitVec.toNat_shiftLeft, Nat.shiftLeft_eq, pow_one]

end Bytes

/-! ### The instructions -/

section Exec

variable (x y : Nibble) (s : State)

theorem exec_subReg : exec (.subReg x y) s = .next
    (s.flagThen (strictlyGreater (s.getReg x) (s.getReg y)) x (fun t => t.getReg x - t.getReg y)) := rfl

theorem exec_subnReg : exec (.subnReg x y) s = .next
    (s.flagThen (strictlyGreater (s.getReg y) (s.getReg x)) x (fun t => t.getReg y - t.getReg x)) := rfl

theorem exec_shr : exec (.shr x y) s = .next (s.flagThen (lowBit (s.getReg x)) x (fun t => t.getReg x >>> 1)) := rfl

theorem exec_shl : exec (.shl x y) s = .next (s.flagThen (highBit (s.getReg x)) x (fun t => t.getReg x <<< 1)) := rfl

end Exec

/-- Settles O33: away from VF the difference reads the old registers, and the flag stands. -/
theorem subtractAwayFromVF : Obligations.SubtractAwayFromVF := by
  intro x y s hx hy
  refine ⟨⟨_, exec_subReg x y s, ?_, ?_, onlyRegisters_flagThen s _ _⟩,
    _, exec_subnReg x y s, ?_, ?_, onlyRegisters_flagThen s _ _⟩
  · rw [getReg_flagThen_same, getReg_setFlag_other s _ hx, getReg_setFlag_other s _ hy, sub_toNat]
  · rw [getReg_flagThen_vf s _ _ hx, flagByte_strictlyGreater]
  · rw [getReg_flagThen_same, getReg_setFlag_other s _ hx, getReg_setFlag_other s _ hy, sub_toNat]
  · rw [getReg_flagThen_vf s _ _ hx, flagByte_strictlyGreater]

/-- Settles O34: where VF is an operand the difference reads the flag, and where it is x the difference replaces it. -/
theorem subtractNamingVF : Obligations.SubtractNamingVF := by
  intro z s hz
  refine ⟨⟨_, exec_subReg 0xF z s, onlyRegisters_flagThen_vf s _ _, ?_⟩,
    ⟨_, exec_subReg z 0xF s, onlyRegisters_flagThen s _ _, ?_, ?_⟩,
    ⟨_, exec_subnReg 0xF z s, onlyRegisters_flagThen_vf s _ _, ?_⟩,
    ⟨_, exec_subnReg z 0xF s, onlyRegisters_flagThen s _ _, ?_, ?_⟩,
    ⟨_, exec_subReg 0xF 0xF s, onlyRegisters_flagThen_vf s _ _, ?_⟩,
    _, exec_subnReg 0xF 0xF s, onlyRegisters_flagThen_vf s _ _, ?_⟩
  · rw [getReg_flagThen_same, getReg_setFlag_other s _ hz, getReg_setFlag_vf, sub_toNat, flagByte_strictlyGreater_toNat]
  · rw [getReg_flagThen_vf s _ _ hz, flagByte_strictlyGreater]
  · rw [getReg_flagThen_same, getReg_setFlag_other s _ hz, getReg_setFlag_vf, sub_toNat, flagByte_strictlyGreater_toNat]
  · rw [getReg_flagThen_same, getReg_setFlag_other s _ hz, getReg_setFlag_vf, sub_toNat, flagByte_strictlyGreater_toNat]
  · rw [getReg_flagThen_vf s _ _ hz, flagByte_strictlyGreater]
  · rw [getReg_flagThen_same, getReg_setFlag_other s _ hz, getReg_setFlag_vf, sub_toNat, flagByte_strictlyGreater_toNat]
  · exact (getReg_flagThen_same s _ _).trans (BitVec.sub_self _)
  · exact (getReg_flagThen_same s _ _).trans (BitVec.sub_self _)

/-- Settles O35: away from VF the shift reads the old V[x]; on VF it reads the bit just written there, 0 or 1. -/
theorem shiftsByOne : Obligations.ShiftsByOne := by
  refine fun x y s => ⟨fun hx => ⟨⟨_, exec_shr x y s, ?_, ?_, onlyRegisters_flagThen s _ _⟩,
    _, exec_shl x y s, ?_, ?_, onlyRegisters_flagThen s _ _⟩,
    ⟨_, exec_shr 0xF y s, ?_, onlyRegisters_flagThen_vf s _ _⟩,
    _, exec_shl 0xF y s, ?_, onlyRegisters_flagThen_vf s _ _⟩
  · rw [getReg_flagThen_same, getReg_setFlag_other s _ hx, shiftRight_one_toNat]
  · rw [getReg_flagThen_vf s _ _ hx, flagByte_lowBit_toNat]
  · rw [getReg_flagThen_same, getReg_setFlag_other s _ hx, shiftLeft_one_toNat]
  · rw [getReg_flagThen_vf s _ _ hx, flagByte_highBit_toNat]
  · rw [getReg_flagThen_same, getReg_setFlag_vf]
    cases lowBit (s.getReg 0xF) <;> rfl
  · have := (s.getReg 0xF).isLt
    rw [getReg_flagThen_same, getReg_setFlag_vf, shiftLeft_one_toNat, flagByte_highBit_toNat]
    omega

/-- R112: one byte is drawn, and V[x] is written from it. -/
theorem exec_rnd (x : Nibble) (kk : Byte) (s : State) :
    exec (.rnd x kk) s = .next (s.countDraw.setReg x (s.drawn &&& kk)) := rfl

/-- Settles O36: the byte drawn is the oracle's next, and a cleared mask bit clears the bit of V[x]. -/
theorem randomUnderMask : Obligations.RandomUnderMask := by
  refine fun x kk s => ⟨_, exec_rnd x kk s, s.countDraw.getReg_setReg_same x _, fun k hk => ?_, rfl,
    fun j hj => s.countDraw.getReg_setReg_other _ hj, rfl, fun _ => rfl⟩
  rw [State.getReg_setReg_same, BitVec.getLsbD_and, hk, Bool.and_false]

end Sys2Proof
end

