-- ==== Sys2Proof/Proofs/MemoryTransfers.lean ====
section
/-!
PROOFS. The transfers between registers and memory through I (spec 42_index_memory.md R123 to R126). Below the bound of
the access each is a store of bytes at I and up, or a load of V0 and up from there.
-/

namespace Sys2Proof

open Machine

/-! ### Stores and loads within the bound -/

section Transfers

variable {s : State} {x : Nibble}

/-- R44: an access of `x + 1` bytes within the bound does not fault. -/
theorem boundsFault_regCount (h : s.idx.toNat + x.toNat ≤ 0xFFF) : s.boundsFault (x.toNat + 1) = none :=
  boundsFault_none s _ (.inr (by omega))

theorem exec_ldB (h : s.idx.toNat + 2 ≤ 0xFFF) :
    exec (.ldB x) s = .next (s.storeAtI (decimalDigits (s.getReg x))) :=
  exec_of_faultIn_none (p := 0) (boundsFault_none s 3 (.inr (by omega)))

theorem exec_storeRegs (h : s.idx.toNat + x.toNat ≤ 0xFFF) :
    exec (.storeRegs x) s = .next (s.storeAtI (s.regsUpTo x)) :=
  exec_of_faultIn_none (p := 0) (boundsFault_regCount h)

theorem exec_loadRegs (h : s.idx.toNat + x.toNat ≤ 0xFFF) :
    exec (.loadRegs x) s = .next (s.setRegs (putRegs s.v 0 (s.readAtI (regCount x)))) :=
  exec_of_faultIn_none (p := 0) (boundsFault_regCount h)

/-- R126: a store at I changes the stored bytes of memory and nothing else. -/
theorem onlyBytes_storeAtI (s : State) {bs : List Byte} {len : Nat} (hlen : bs.length = len) :
    OnlyBytes s.idx.toNat len s (s.storeAtI bs) :=
  ⟨rfl, fun _ hb => Memory.read_writeBytes_outside s.mem bs (hlen ▸ hb)⟩

/-- R126: below the bound the byte at I + k is the k-th one stored. -/
theorem read_storeAtI {bs : List Byte} {k : Nat} (hinv : MemoryInv s) (hbound : s.idx.toNat + bs.length ≤ 0x1000)
    (hk : k < bs.length) : (s.storeAtI bs).mem.read (s.idx.toNat + k) = bs[k] :=
  Memory.read_writeBytes_inside bs hinv hbound hk

/-- R124: a store of V0 to Vx leaves V[j] at I + j. -/
theorem read_storeAtI_regsUpTo (hinv : MemoryInv s) (hbound : s.idx.toNat + x.toNat ≤ 0xFFF) {j : Nibble}
    (hj : j.toNat ≤ x.toNat) : (s.storeAtI (s.regsUpTo x)).mem.read (s.idx.toNat + j.toNat) = s.getReg j := by
  have hlen : (s.regsUpTo x).length = x.toNat + 1 := s.regsUpTo_length x
  rw [read_storeAtI hinv (by omega) (by omega), State.regsUpTo_getElem, BitVec.ofNat_toNat, BitVec.setWidth_eq]

/-- R125: a load of V0 to Vx puts the byte at I + j into V[j]. -/
theorem getReg_loaded {j : Nibble} (hj : j.toNat ≤ x.toNat) :
    (s.setRegs (putRegs s.v 0 (s.readAtI (regCount x)))).getReg j = s.mem.read (s.idx.toNat + j.toNat) := by
  have hlt : j.toNat < (s.readAtI (regCount x)).length := by
    rw [State.readAtI_length, regCount]
    omega
  rw [getReg_setRegs_putRegs, dif_pos hlt]
  exact Memory.readBytes_getElem s.mem s.idx.toNat (regCount x) j.toNat hlt

end Transfers

/-- R123: the three digits, as numbers. -/
theorem decimalDigits_toNat (b : Byte) :
    (b / 100).toNat = b.toNat / 100 ∧ (b / 10 % 10).toNat = b.toNat / 10 % 10 ∧ (b % 10).toNat = b.toNat % 10 := by
  simp [BitVec.toNat_udiv, BitVec.toNat_umod]

/-- Settles O39: three bytes are stored at I and up, and they are the digits. -/
theorem decimalDigitsAreStored : Obligations.DecimalDigitsAreStored := by
  intro x s hinv hbound
  obtain ⟨hundreds, tens, units⟩ := decimalDigits_toNat (s.getReg x)
  have hread (k : Nat) (hk : k < 3) := read_storeAtI (bs := decimalDigits (s.getReg x)) hinv
    (by rw [decimalDigits_length]; omega) hk
  refine ⟨_, exec_ldB hbound, ?_, ?_, ?_, onlyBytes_storeAtI s (decimalDigits_length _)⟩
  · exact (congrArg BitVec.toNat (hread 0 (by decide))).trans hundreds
  · exact (congrArg BitVec.toNat (hread 1 (by decide))).trans tens
  · exact (congrArg BitVec.toNat (hread 2 (by decide))).trans units

/-- Settles O40: V0 to Vx are stored at I and up. -/
theorem registersAreStored : Obligations.RegistersAreStored :=
  fun x s hinv hbound => ⟨_, exec_storeRegs hbound, fun _ hj => read_storeAtI_regsUpTo hinv hbound hj,
    onlyBytes_storeAtI s (s.regsUpTo_length x)⟩

/-- Settles O41: a register up to Vx is loaded, one above it is no destination, and nothing else is written. -/
theorem registersAreLoaded : Obligations.RegistersAreLoaded := by
  refine fun x s hbound => ⟨_, exec_loadRegs hbound, fun _ hj => getReg_loaded hj, rfl, fun j hj => ?_, fun _ => rfl⟩
  exact (Instr.loadRegs x).effect_getReg s (decide_eq_false hj) (fun _ => rfl)

/-- Settles O42: the load reads the bytes that the store left. -/
theorem storeThenLoadGivesBack : Obligations.StoreThenLoadGivesBack :=
  fun x s w hinv hbound => ⟨_, _, exec_storeRegs hbound,
    exec_loadRegs (s := { s.storeAtI (s.regsUpTo x) with v := w }) hbound,
    fun _ hj => (getReg_loaded hj).trans (read_storeAtI_regsUpTo hinv hbound hj)⟩

/-- Settles O43: the fetch reads memory as the store left it, V0 at pc and V1 after it. -/
theorem storeIsSeenByNextFetch : Obligations.StoreIsSeenByNextFetch := by
  intro x s hinv hpc hx hbound
  have hfirst := read_storeAtI_regsUpTo hinv hbound (j := 0) (Nat.zero_le _)
  have hsecond := read_storeAtI_regsUpTo hinv hbound (j := 1) hx
  refine ⟨_, exec_storeRegs hbound, ?_⟩
  rw [hpc] at hfirst hsecond
  exact congrArg₂ wordOfBytes hfirst hsecond

end Sys2Proof
end

