-- ==== Sys2Proof/Proofs/Display.lean ====
section
/-!
PROOFS. The display (spec 43_display.md R140 to R142; 20_memory.md R54). A blit toggles the pixels under the sprite's 1
bits and tells whether one of them was lit; what `DRW`, once and twice, does to the grid and to VF follows from that
alone. No other instruction but `CLS` reads or writes the grid.
-/

namespace Sys2Proof

open Machine

/-! ### The blit and the sprite -/

section Sprite

variable (s : State) (x y n : Nibble)

/-- R142: the rows read from I on hold the sprite that the statements speak of. -/
theorem readAtI_covers_iff_sprite (cx : Fin 64) (cy : Fin 32) :
    (∃ j b, j < (s.readAtI n.toNat).length ∧ b < 8 ∧ ((s.getReg x).toNat + b) % 64 = cx.val ∧
      ((s.getReg y).toNat + (0 + j)) % 32 = cy.val ∧ ((s.readAtI n.toNat).getD j 0).getLsbD (7 - b) = true) ↔
    s.sprite x y n cx cy := by
  have hrow {j : Nat} (hj : j < (s.readAtI n.toNat).length) :
      (s.readAtI n.toNat).getD j 0 = s.mem.read (s.idx.toNat + j) :=
    (List.getD_eq_getElem _ _ hj).trans (Memory.readBytes_getElem s.mem s.idx.toNat n.toNat j hj)
  refine exists₂_congr fun j b => ?_
  rw [Nat.zero_add]
  constructor
  · rintro ⟨hj, hb, hx, hy, hbit⟩
    exact ⟨by rwa [State.readAtI_length] at hj, hb, hx, hy, hrow hj ▸ hbit⟩
  · rintro ⟨hj, hb, hx, hy, hbit⟩
    have hj' : j < (s.readAtI n.toNat).length := by rwa [State.readAtI_length]
    exact ⟨hj', hb, hx, hy, (hrow hj').symm ▸ hbit⟩

/-- R142: the blit of `DRW` toggles the sprite's pixels, and collides exactly when one of them was lit. -/
theorem spriteBlit_cases :
    (∀ cx cy, (s.spriteBlit x y n).pix.lit cx cy = true ↔ ¬ (s.pix.lit cx cy = true ↔ s.sprite x y n cx cy)) ∧
    ((s.spriteBlit x y n).coll = true ↔ ∃ cx cy, s.pix.lit cx cy = true ∧ s.sprite x y n cx cy) := by
  have hlen : 0 + (s.readAtI n.toNat).length ≤ 32 := by
    rw [State.readAtI_length]
    omega
  obtain ⟨hpix, hcoll⟩ := blitRows_cases (s.getReg x).toNat (s.getReg y).toNat 0 (s.readAtI n.toNat) ⟨s.pix, false⟩ hlen
  simp only [readAtI_covers_iff_sprite, Bool.false_eq_true, false_or] at hpix hcoll
  exact ⟨hpix, hcoll⟩

/-- R142: start coordinates equal modulo 64 and modulo 32 cover the same pixels. -/
theorem spriteCovers_congr {m : Memory} {a : Nat} {x0 x0' y0 y0' : Byte} {cx : Fin 64} {cy : Fin 32}
    (hx : x0'.toNat % 64 = x0.toNat % 64) (hy : y0'.toNat % 32 = y0.toNat % 32) :
    SpriteCovers m a x0' y0' n cx cy ↔ SpriteCovers m a x0 y0 n cx cy := by
  unfold SpriteCovers
  refine exists₂_congr fun r b => ?_
  rw [Nat.add_mod, hx, ← Nat.add_mod, Nat.add_mod y0'.toNat, hy, ← Nat.add_mod]

end Sprite

/-! ### Drawing -/

section Draw

variable {s : State} {x y n : Nibble}

/-- R141: `DRW` within its bound. -/
theorem exec_drw (h : n.toNat = 0 ∨ s.idx.toNat + n.toNat - 1 ≤ 0xFFF) :
    exec (.drw x y n) s = .next ((Instr.drw x y n).effect s) :=
  exec_of_faultIn_none (p := 0) (boundsFault_none s n.toNat h)

/-- R141: the grid is the one the blit leaves. -/
theorem effect_drw_pix : ((Instr.drw x y n).effect s).pix = (s.spriteBlit x y n).pix := rfl

/-- R141: drawing does not stop the executor. -/
theorem effect_drw_executor : ((Instr.drw x y n).effect s).executor = s.executor := rfl

/-- R141: VF is the collision result. -/
theorem effect_drw_getReg_vf : ((Instr.drw x y n).effect s).getReg 0xF = flagByte (s.spriteBlit x y n).coll :=
  State.getReg_setReg_same (s.setPix _) 0xF _

/-- D27: the flag byte is 1 exactly for true. -/
theorem flagByte_eq_one_iff (c : Bool) : flagByte c = 1 ↔ c = true := by cases c <;> decide

end Draw

/-- Settles O47: the blit toggles the sprite's pixels, and the effect writes VF, the grid and one report besides. -/
theorem drawTogglesSpritePixels : Obligations.DrawTogglesSpritePixels :=
  fun x y n s h => ⟨_, exec_drw h, (spriteBlit_cases s x y n).1,
    fun _ hj => (Instr.drw x y n).effect_getReg s rfl (fun hvf => absurd hvf hj), rfl, fun _ => rfl⟩

/-- Settles O48: VF is the flag byte of the blit's collision result. -/
theorem drawReportsCollision : Obligations.DrawReportsCollision := by
  intro x y n s h
  obtain ⟨-, hcoll⟩ := spriteBlit_cases s x y n
  refine ⟨_, exec_drw h, fun hyes => ?_, fun hno => ?_⟩
  · rw [effect_drw_getReg_vf, hcoll.mpr hyes, flagByte_true]
  · rw [effect_drw_getReg_vf, Bool.eq_false_iff.mpr (mt hcoll.mp hno), flagByte_false]

/-- Settles O49: both blits toggle the same pixels, so the second undoes the first, and it meets a lit pixel exactly
where the first met one that was off. -/
theorem drawingTwiceRestores : Obligations.DrawingTwiceRestores := by
  intro x y n s h
  refine ⟨_, _, exec_drw h, exec_drw (s := { (Instr.drw x y n).effect s with v := s.v }) h, ?_⟩
  obtain ⟨hfirst, -⟩ := spriteBlit_cases s x y n
  obtain ⟨hsecond, hcoll⟩ := spriteBlit_cases { (Instr.drw x y n).effect s with v := s.v } x y n
  have hlit (cx : Fin 64) (cy : Fin 32) : ((Instr.drw x y n).effect s).pix.lit cx cy = true ↔
      ¬ (s.pix.lit cx cy = true ↔ s.sprite x y n cx cy) := hfirst cx cy
  constructor
  · refine Grid.ext_lit fun cx cy => Bool.eq_iff_iff.mpr ((hsecond cx cy).trans ?_)
    change ¬ (((Instr.drw x y n).effect s).pix.lit cx cy = true ↔ s.sprite x y n cx cy) ↔ _
    rw [hlit]
    tauto
  · rw [effect_drw_getReg_vf, flagByte_eq_one_iff, hcoll]
    refine exists₂_congr fun cx cy => ?_
    change _ ↔ ((Instr.drw x y n).effect s).pix.lit cx cy = true ∧ s.sprite x y n cx cy
    rw [hlit, ← Bool.not_eq_true]
    tauto

/-! ### Who reaches the grid -/

/-- R54: an instruction other than `CLS` and `DRW` commutes with replacing the grid. -/
theorem exec_setPix (i : Instr) (s : State) (g : Grid) (h : i.usesDisplay = false) :
    exec i (s.setPix g) = mapNext (·.setPix g) (exec i s) := by
  have hfault (p : Nat) : i.faultIn (s.setPix g) p = i.faultIn s p := by cases i <;> rfl
  have heffect : i.effect (s.setPix g) = (i.effect s).setPix g := by
    cases i with
    | cls | drw => exact nomatch h
    | _ => rfl
  rcases exec_cases s i with ⟨hf, he⟩ | ⟨c, a, hf, he⟩
  · rw [he, exec_of_faultIn_none ((hfault _).trans hf), heffect]
    rfl
  · rw [he, exec_of_faultIn_some ((hfault _).trans hf)]
    rfl

/-- R142: registers that give start coordinates equal modulo 64 and modulo 32 draw the same pixels. -/
theorem effect_drw_pix_congr {s : State} {w : Vector Byte 16} {x y n : Nibble}
    (hx : ((s.setRegs w).getReg x).toNat % 64 = (s.getReg x).toNat % 64)
    (hy : ((s.setRegs w).getReg y).toNat % 32 = (s.getReg y).toNat % 32) :
    ((Instr.drw x y n).effect (s.setRegs w)).pix = ((Instr.drw x y n).effect s).pix := by
  rw [effect_drw_pix, effect_drw_pix]
  refine Grid.ext_lit fun cx cy => Bool.eq_iff_iff.mpr ?_
  obtain ⟨hpix, -⟩ := spriteBlit_cases s x y n
  obtain ⟨hpix', -⟩ := spriteBlit_cases (s.setRegs w) x y n
  exact (hpix' cx cy).trans ((not_congr (iff_congr Iff.rfl (spriteCovers_congr n hx hy))).trans (hpix cx cy).symm)

/-- Settles O50: every other instruction commutes with replacing the grid; `DRW` faults by I and n alone, and its
coordinates count modulo 64 and 32. -/
theorem displayReachedOnlyByClearAndDraw : Obligations.DisplayReachedOnlyByClearAndDraw := by
  refine ⟨exec_setPix, fun x y n s s' hs' => ?_⟩
  obtain ⟨w, rfl⟩ : ∃ w, s' = s.setRegs w := ⟨s'.v, hs'⟩
  rcases exec_cases s (.drw x y n) with ⟨hf, he⟩ | ⟨c, a, hf, he⟩
  · refine ⟨_, _, he, exec_of_faultIn_none (p := 0) hf, ?_, ?_, ?_, fun _ => rfl, effect_drw_pix_congr⟩
    · rw [effect_drw_executor, effect_drw_executor, State.setRegs_executor]
    · rw [Instr.effect_haltCause, Instr.effect_haltCause, State.setRegs_haltCause]
    · rw [Instr.effect_haltAddr, Instr.effect_haltAddr, State.setRegs_haltAddr]
  · refine ⟨_, _, he, exec_of_faultIn_some hf, rfl, rfl, rfl, fun hin => ?_, fun _ _ => rfl⟩
    exact nomatch hf.symm.trans (boundsFault_none s n.toNat hin)

/-- Settles O46: the grid is replaced by the blank one, and one report is made. -/
theorem clearTurnsEveryPixelOff : Obligations.ClearTurnsEveryPixelOff :=
  fun _ => ⟨_, exec_of_faultIn_none (i := .cls) (p := 0) rfl, Grid.blank_lit, rfl, fun _ => rfl⟩

end Sys2Proof
end

