-- ==== Sys2Proof/Proofs/KeyWait.lean ====
section
/-!
PROOFS. The keypad instructions, the key wait and the timer tick (spec 44_input_timers.md R150 to R154;
60_exceptions.md R177, R182 and section 4). A key wait stands still under execution ticks, however many, and the press
that ends it writes the register it remembers.
-/

namespace Sys2Proof

open Machine

/-- Settles O51: each is a skip under the full-byte key test or its negation. -/
theorem keySkips : Obligations.KeySkips := by
  intro x s
  have hpressed := s.isPressed_iff (s.getReg x)
  refine ⟨exec_skip rfl rfl hpressed, ?_⟩
  simp only [← ite_not (s.keyValid = true ∧ s.key.toNat = (s.getReg x).toNat)]
  exact exec_skip rfl rfl (by rw [Bool.not_eq_true', ← Bool.not_eq_true, hpressed])

/-! ### The key wait -/

/-- R154: `LD Vx, K` parks. -/
theorem exec_ldVxK (x : Nibble) (s : State) : exec (.ldVxK x) s = .next (s.park x) := rfl

/-- Settles O52: parking writes wait_x and the executor alone. -/
theorem keyWaitParks : Obligations.KeyWaitParks :=
  fun x s => ⟨_, exec_ldVxK x s, rfl, fun _ => rfl⟩

section Wait

variable {s : State} {k : Nibble} {rest : List Event}

/-- R182: a press in a key wait ends it. -/
theorem step_press_of_waiting (hagenda : s.agenda = .press k :: rest) (hwait : s.executor = .waitingForKey) :
    step s = .next (((s.setAgenda rest).keyDown k).endKeyWait k) := by
  rw [step_of_agenda hagenda]
  rcases (s.setAgenda rest).press_cases k with ⟨-, heq⟩ | ⟨hno, -⟩
  · exact congrArg _ heq
  · exact absurd hwait hno

/-- R182, D28: the press writes the key's number to the register of the wait. -/
theorem endKeyWait_getReg_waitX : ((s.endKeyWait k).getReg s.waitX).toNat = k.toNat := by
  have hreg : (s.endKeyWait k).getReg s.waitX = k.setWidth 8 := s.getReg_setReg_same s.waitX _
  rw [hreg, BitVec.toNat_setWidth]
  omega

/-- R182: the press writes no other register. -/
theorem endKeyWait_getReg_other {j : Nibble} (hj : j ≠ s.waitX) : (s.endKeyWait k).getReg j = s.getReg j :=
  s.getReg_setReg_other _ hj

/-- D24: execution ticks in a key wait are consumed, and nothing else happens. -/
theorem run_ticks_of_waiting (ticks m : Nat) (hagenda : s.agenda = List.replicate ticks .execTick ++ rest)
    (hwait : s.executor = .waitingForKey) :
    Host.Core.run core (ticks + m) s = Host.Core.run core m (s.setAgenda rest) := by
  induction ticks generalizing s with
  | zero =>
    have hsame : s.setAgenda rest = s := by
      rw [← List.nil_append rest, ← List.replicate_zero, ← hagenda]
      rfl
    rw [hsame, Nat.zero_add]
  | succ ticks ih =>
    have hstep : step s = .next (s.setAgenda (List.replicate ticks .execTick ++ rest)) :=
      (step_of_agenda hagenda).trans (execTick_of_not_running (by rw [State.setAgenda_executor, hwait]; decide))
    rw [Nat.succ_add_eq_add_succ, Nat.add_succ, core_run_next _ hstep]
    exact ih rfl hwait

end Wait

/-- Settles O54: the press writes the remembered register, the key slot and the executor. -/
theorem pressEndsKeyWait : Obligations.PressEndsKeyWait :=
  fun _ _ _ hagenda hwait => ⟨_, step_press_of_waiting hagenda hwait, endKeyWait_getReg_waitX,
    fun _ hj => endKeyWait_getReg_other hj, rfl, fun _ => rfl⟩

/-- Settles O55: the ticks leave the wait as it was, and the press ends it. -/
theorem keyWaitThenPressResumes : Obligations.KeyWaitThenPressResumes := by
  intro x k s ticks rest
  have hpress := step_press_of_waiting (s := (s.park x).setAgenda (.press k :: rest)) rfl rfl
  refine ⟨_, _, exec_ldVxK x s, (run_ticks_of_waiting ticks 1 rfl rfl).trans (core_run_next 0 hpress), ?_⟩
  exact ⟨endKeyWait_getReg_waitX, rfl, rfl, rfl, fun _ hj => endKeyWait_getReg_other hj⟩

/-- Settles O57: each timer is counted down on its own, and nothing else is written. -/
theorem timerTickCountsDown : Obligations.TimerTickCountsDown :=
  fun s _ hagenda => ⟨_, step_of_agenda hagenda, countDown_toNat s.dt, countDown_toNat s.st, rfl, fun _ => rfl⟩

end Sys2Proof
end
